-- ==== Sys2Proof/Word.lean ====
section
/-! DEFINITION. The word types of SLIPF (00_scope.md R10, 20_memory.md R60 and R61): a byte, the 32-bit word that one
bus transaction moves, the 18-bit byte address, and a table with one entry for each byte value. -/

namespace Sys2Proof

/-- A byte: 8 bits (R9). -/
abbrev Byte := BitVec 8

/-- One bus word: 32 bits (R61). -/
abbrev Word := BitVec 32

/-- A byte address of the host bus space, A[17:0] (R60, R107). -/
abbrev Addr := BitVec 18

/-- A table with one entry for each of the 256 byte values (R9, R37 to R39). -/
abbrev Table (α : Type) := Vector α 256

end Sys2Proof
end

