-- ==== Sys2Proof/Config.lean ====
section
/-! DEFINITION. What one SLIPF block fixes for good: the parameters of 00_scope.md R8 with their legal values and
defaults, the constants of R9 and 10_state.md R42, and the one free value (93_implementation_defined.md U2). -/

namespace Sys2Proof

/-- The DELIM register's three configured bytes START, END and ESC (R34). -/
structure Delim where
  startByte : Byte
  endByte   : Byte
  escByte   : Byte
  deriving DecidableEq, Repr

/-- A value of the parameter P_CFG_RESET: the reset contents of DELIM and of the ENT table, ACT and EM (R8, R33). -/
structure CfgReset where
  delim : Delim
  act   : Table Bool
  em    : Table Byte
  deriving DecidableEq, Repr

/-- The implementation parameters (R8). `rbMaxExp` is the k of P_RB_MAX = 256 * 2^k, 0 ≤ k ≤ 23, so every value of the
type is legal; the ranges of the two memory sizes are `Params.wf`. -/
structure Params where
  rbMaxExp : Fin 24
  epSize   : Nat
  eoSize   : Nat
  checkInj : Bool
  cfgReset : CfgReset
  deriving DecidableEq, Repr

namespace Config

/-- The first capacity of the receive buffer (R9). -/
def firstCapacity : Nat := 256

/-- The ID register (R42). -/
def idValue : Word := 0x534C4950#32

/-- The configuration of the source's worked example (R33): START = END = 0xC0, ESC = 0xDB, 0xC0 and 0xDB active with the
substitutes 0xDC and 0xDD, and every other entry inactive with substitute 0x00. -/
def exampleCfg : CfgReset where
  delim := { startByte := 0xC0#8, endByte := 0xC0#8, escByte := 0xDB#8 }
  act := ((Vector.replicate 256 false).set 0xC0 true).set 0xDB true
  em := ((Vector.replicate 256 0x00#8).set 0xC0 0xDC#8).set 0xDB 0xDD#8

/-- THE FREE VALUE: the byte drawn by the k-th read of an EP or EO cell that was never written since reset
(R230, R231, U2). It has no body: nothing is known of it. -/
opaque freeByte : Nat → Byte

end Config

/-- P_RB_MAX, the largest capacity of the receive buffer (R8). -/
def Params.rbMax (p : Params) : Nat := 256 * 2 ^ p.rbMaxExp.val

/-- log2(P_RB_MAX), which PARAM1 shows (R42). -/
def Params.rbMaxLog2 (p : Params) : Nat := 8 + p.rbMaxExp.val

/-- The legal ranges of P_EP_SIZE and P_EO_SIZE (R8). -/
abbrev Params.wf (p : Params) : Prop :=
  1 ≤ p.epSize ∧ p.epSize ≤ 16384 ∧ 2 ≤ p.eoSize ∧ p.eoSize ≤ 16384

/-- The default parameters (R8): P_RB_MAX 65536, P_EP_SIZE 4096, P_EO_SIZE 8194, P_CHECK_INJ 0, P_CFG_RESET the example. -/
def Params.default : Params where
  rbMaxExp := 8
  epSize := 4096
  eoSize := 8194
  checkInj := false
  cfgReset := Config.exampleCfg

end Sys2Proof
end

