-- ==== Sys2Proof/Syntax.lean ====
section
/-! DEFINITION. The instructions of SLIPF: one constructor for each row of spec/opcode_table.json. The first six are the
commands of 30_encoding.md R96, which a CMD write carries; the others are the bus transactions RD32 and WR32, by target
(43_host_access.md). -/

namespace Sys2Proof

/-- One row of the opcode table each, with its operands as the table gives them. -/
inductive Instr where
  /-- INIT: construct the context (R125). -/
  | init
  /-- DEINIT: tear the context down (R127). -/
  | deinit
  /-- DECB b: decode one byte (R152). -/
  | decb (b : Byte)
  /-- RESUME: resume after a resource exhaustion (R170). -/
  | resume
  /-- RESTART: the caller's explicit restart (R171). -/
  | restart
  /-- ENCODE n, C: stuff the payload EP[0:n) into at most C bytes of EO (R201). -/
  | encode (n c : BitVec 14)
  /-- RD32 A: read the word at byte address A (R223). -/
  | rd32 (a : Addr)
  /-- WR32 CTRL, D (R226). -/
  | wr32Ctrl (d : Word)
  /-- WR32 DELIM, D (R226). -/
  | wr32Delim (d : Word)
  /-- WR32 USER, D (R226). -/
  | wr32User (d : Word)
  /-- WR32 CMD, D: run the command word D (R92, R224). -/
  | wr32Cmd (d : Word)
  /-- WR32 RESP, D: answer the pending event (R225). -/
  | wr32Resp (d : Word)
  /-- WR32 RB_IDX, D (R229). -/
  | wr32RbIdx (d : Word)
  /-- WR32 ENT[v], D (R227). -/
  | wr32Ent (v : Byte) (d : Word)
  /-- WR32 EP[i], D (R230). -/
  | wr32Ep (i : BitVec 14) (d : Word)
  /-- WR32 EO[i], D (R231). -/
  | wr32Eo (i : BitVec 14) (d : Word)
  /-- WR32 to any other address: a read-only register, DMAP, an unmapped or a misaligned address (R232, R222). -/
  | wr32Ro (a : Addr) (d : Word)
  deriving DecidableEq, Repr

end Sys2Proof
end

