-- ==== Sys2Proof/WellFormed.lean ====
section
/-! DEFINITION. Well-formed instructions. Every operand has the width of its field, so one check is left: the row
WR32_RO stands for the write addresses that no other WR32 row takes. -/

namespace Sys2Proof

/-- The addresses that a WR32 row other than WR32_RO takes (20_memory.md R63): CTRL, DELIM, USER, CMD, RESP, RB_IDX, an
ENT entry, and any word of the two 64 KiB windows where EP and EO lie. -/
def writeRowTakes (a : Addr) : Bool :=
  let n := a.toNat
  n == 0x004 || n == 0x008 || n == 0x00C || n == 0x010 || n == 0x02C || n == 0x038
    || (n % 4 == 0 && ((0x400 ≤ n && n < 0x800) || (0x10000 ≤ n && n < 0x30000)))

/-- An instruction is well formed unless it is a WR32_RO at an address that another WR32 row takes. -/
def Instr.wf : Instr → Bool
  | .wr32Ro a _ => !writeRowTakes a
  | .init => true
  | .deinit => true
  | .decb _ => true
  | .resume => true
  | .restart => true
  | .encode _ _ => true
  | .rd32 _ => true
  | .wr32Ctrl _ => true
  | .wr32Delim _ => true
  | .wr32User _ => true
  | .wr32Cmd _ => true
  | .wr32Resp _ => true
  | .wr32RbIdx _ => true
  | .wr32Ent _ _ => true
  | .wr32Ep _ _ => true
  | .wr32Eo _ _ => true

end Sys2Proof
end

