-- ==== Sys2Proof/Decode.lean ====
section
/-! DEFINITION. The decoder, total on every command word and every bus transaction, and after it the encoder. The decoder
reads the command word's fields (30_encoding.md R91 to R98) and the offsets of the address map (20_memory.md R63); the
encoder is written from the match words of R96 and the bit patterns of spec/opcode_table.json. -/

namespace Sys2Proof

/-- Why a command word is illegal (R97). -/
inductive DecodeError where
  /-- OP is 0x0 or 0x7 to 0xF. -/
  | reservedOpcode
  /-- A reserved bit of a format N or B word is 1. -/
  | reservedBits
  deriving DecidableEq, Repr

/-- The six commands (R96): what a legal command word selects. -/
inductive Command where
  | init
  | deinit
  | decb (b : Byte)
  | resume
  | restart
  | encode (n c : BitVec 14)
  deriving DecidableEq, Repr

/-- A bus transaction (R107): a read of an address, or a write of a data word to an address. -/
inductive Transaction where
  | read (a : Addr)
  | write (a : Addr) (d : Word)
  deriving DecidableEq, Repr

/-- The encoded objects that stand for instructions (R90): a command word or a bus transaction. -/
inductive Code where
  | command (w : Word)
  | bus (t : Transaction)
  deriving DecidableEq, Repr

/-- The command as a row of the opcode table. -/
def Command.toInstr : Command → Instr
  | .init => .init
  | .deinit => .deinit
  | .decb b => .decb b
  | .resume => .resume
  | .restart => .restart
  | .encode n c => .encode n c

/-- OP = w[31:28] (R91). -/
def opField (w : Word) : BitVec 4 := w.extractLsb' 28 4

/-- Format N (R93): bits [27:0] are reserved and must be 0. -/
def formatN (c : Command) (w : Word) : Except DecodeError Command :=
  if w.extractLsb' 0 28 = 0#28 then .ok c else .error .reservedBits

/-- Format B (R94, R98): BYTE = w[7:0]; bits [27:8] are reserved and must be 0. -/
def formatB (w : Word) : Except DecodeError Command :=
  if w.extractLsb' 8 20 = 0#20 then .ok (.decb (w.extractLsb' 0 8)) else .error .reservedBits

/-- Format E (R95, R98): NLEN = w[27:14] and OCAP = w[13:0]; no bit is reserved. -/
def formatE (w : Word) : Command := .encode (w.extractLsb' 14 14) (w.extractLsb' 0 14)

/-- The command that a command word selects, or why it is illegal (R96, R97). -/
def decodeCommand (w : Word) : Except DecodeError Command :=
  match (opField w).toNat with
  | 1 => formatN .init w
  | 2 => formatN .deinit w
  | 3 => formatB w
  | 4 => formatN .resume w
  | 5 => formatN .restart w
  | 6 => .ok (formatE w)
  | _ => .error .reservedOpcode

/-- The WR32 row that takes a write of `d` to the address `a` (R63). -/
def decodeWrite (a : Addr) (d : Word) : Instr :=
  let n := a.toNat
  if n = 0x004 then .wr32Ctrl d
  else if n = 0x008 then .wr32Delim d
  else if n = 0x00C then .wr32User d
  else if n = 0x010 then .wr32Cmd d
  else if n = 0x02C then .wr32Resp d
  else if n = 0x038 then .wr32RbIdx d
  else if n % 4 ≠ 0 then .wr32Ro a d
  else if 0x400 ≤ n ∧ n < 0x800 then .wr32Ent (BitVec.ofNat 8 ((n - 0x400) / 4)) d
  else if 0x10000 ≤ n ∧ n < 0x20000 then .wr32Ep (BitVec.ofNat 14 ((n - 0x10000) / 4)) d
  else if 0x20000 ≤ n ∧ n < 0x30000 then .wr32Eo (BitVec.ofNat 14 ((n - 0x20000) / 4)) d
  else .wr32Ro a d

/-- The instruction that a bus transaction is: every transaction is one. -/
def decodeTransaction : Transaction → Instr
  | .read a => .rd32 a
  | .write a d => decodeWrite a d

/-- The decoder on either encoded object. -/
def decode : Code → Except DecodeError Instr
  | .command w => (decodeCommand w).map Command.toInstr
  | .bus t => .ok (decodeTransaction t)

/-- The word of a command (R96, R108). -/
def encodeCommand : Command → Word
  | .init => 0x10000000#32
  | .deinit => 0x20000000#32
  | .decb b => 0x3#4 ++ 0#20 ++ b
  | .resume => 0x40000000#32
  | .restart => 0x50000000#32
  | .encode n c => 0x6#4 ++ n ++ c

/-- The address of ENT[v]: the pattern 00000001vvvvvvvv00. -/
def entAddr (v : Byte) : Addr := 0x01#8 ++ v ++ 0#2

/-- The address of EP[i]: the pattern 01iiiiiiiiiiiiii00. -/
def epAddr (i : BitVec 14) : Addr := 0x1#2 ++ i ++ 0#2

/-- The address of EO[i]: the pattern 10iiiiiiiiiiiiii00. -/
def eoAddr (i : BitVec 14) : Addr := 0x2#2 ++ i ++ 0#2

/-- The encoder: the command word or the bus transaction of an instruction. -/
def encode : Instr → Code
  | .init => .command (encodeCommand .init)
  | .deinit => .command (encodeCommand .deinit)
  | .decb b => .command (encodeCommand (.decb b))
  | .resume => .command (encodeCommand .resume)
  | .restart => .command (encodeCommand .restart)
  | .encode n c => .command (encodeCommand (.encode n c))
  | .rd32 a => .bus (.read a)
  | .wr32Ctrl d => .bus (.write 0x00004#18 d)
  | .wr32Delim d => .bus (.write 0x00008#18 d)
  | .wr32User d => .bus (.write 0x0000C#18 d)
  | .wr32Cmd d => .bus (.write 0x00010#18 d)
  | .wr32Resp d => .bus (.write 0x0002C#18 d)
  | .wr32RbIdx d => .bus (.write 0x00038#18 d)
  | .wr32Ent v d => .bus (.write (entAddr v) d)
  | .wr32Ep i d => .bus (.write (epAddr i) d)
  | .wr32Eo i d => .bus (.write (eoAddr i) d)
  | .wr32Ro a d => .bus (.write a d)

/-- The bus transaction that a word numbered as the opcode table numbers it stands for (log entry 3): bits [17:0] are the
address, bit 18 is WE, and for a write the data word lies above the row's three whole bytes, at bits [55:24]. -/
def transactionOfTable (w : Nat) : Transaction :=
  let a := BitVec.ofNat 18 w
  if w / 2 ^ 18 % 2 = 0 then .read a else .write a (BitVec.ofNat 32 (w / 2 ^ 24))

/-- The encoded object that a table word of `nbits` bits stands for: the command rows have 32 bits, the bus rows 19 bits
in three whole bytes. `none` where a bit is set that the object does not have. -/
def codeOfTable (nbits w : Nat) : Option Code :=
  if nbits = 32 then
    if w < 2 ^ 32 then some (.command (BitVec.ofNat 32 w)) else none
  else if w / 2 ^ 19 % 2 ^ 5 = 0 ∧ w < 2 ^ 56 ∧ (w / 2 ^ 18 % 2 = 0 → w < 2 ^ 18) then
    some (.bus (transactionOfTable w))
  else none

/-- The instruction that the decoder reads from a word numbered as spec/opcode_table.json numbers it. -/
def decodeTableWord (nbits w : Nat) : Option Instr :=
  match codeOfTable nbits w with
  | none => none
  | some c =>
    match decode c with
    | .ok i => some i
    | .error _ => none

/-- The transaction that makes the block run a table word: a command word is carried by a write to CMD (R92), a bus row
is the transaction itself. -/
def fetchOfTable (nbits w : Nat) : Transaction :=
  if nbits = 32 then .write 0x00010#18 (BitVec.ofNat 32 w) else transactionOfTable w

end Sys2Proof
end

