-- ==== Sys2Proof/Machine/State.lean ====
section
/-! DEFINITION. The state of one SLIPF block as plain data: the record of 10_state.md R20, the event history of
41_decoder.md R151, and the model's own fields (the parameters and the host's transactions of R45, the last bus response,
and the counter of the free value). Then the state after reset (R46), and the reasons a step can stop. -/

namespace Sys2Proof.Machine

/-- The decoder state (R15, R23). -/
inductive Fsm where
  | idle
  | inFrame
  | escaping
  deriving DecidableEq, Repr

/-- The result codes (R102). -/
inductive ResultCode where
  | ok
  | errConfig
  | errResource
  | errOverflow
  | errState
  | errIllegal
  | errRange
  | errHalted
  deriving DecidableEq, Repr

/-- The decoder event codes (R103). -/
inductive Evt where
  | none
  | start
  | ignore
  | packet
  | restartDup
  | escape
  | data
  | unesc
  | restartBadEsc
  deriving DecidableEq, Repr

/-- RESULT (R28): code, event and 24-bit value. -/
structure Result where
  code : ResultCode
  evt  : Evt
  val  : BitVec 24
  deriving DecidableEq, Repr

/-- The anomaly that a restart reports (R29): a duplicate start or an invalid escape. -/
inductive RestartKind where
  | dup
  | badEsc
  deriving DecidableEq, Repr

/-- The row a byte to be appended came from (R29): row 6 or row 7. -/
inductive AppendKind where
  | data
  | unesc
  deriving DecidableEq, Repr

/-- The pending collaborator event PEND (R29). -/
inductive Pend where
  | none
  | pkt
  | rst (k : RestartKind)
  | alloc (x : Byte) (k : AppendKind)
  deriving DecidableEq, Repr

/-- CTRL: which collaborators the host provides (R35). -/
structure Ctrl where
  pktEn   : Bool
  rstEn   : Bool
  allocEn : Bool
  deriving DecidableEq, Repr

/-- An entry of the event history (R151). -/
inductive HistoryEntry where
  | packet (user : Word) (bytes : List Byte)
  | restart (b : Byte)
  | allocRequest (size : Nat)
  | allocAnswer (granted : Bool)
  deriving DecidableEq, Repr

/-- What the host does at one step (R45, R270): one bus transaction, or a reset. -/
inductive HostInput where
  | bus (t : Transaction)
  | reset
  deriving DecidableEq, Repr

/-- The response to the last bus transaction (R107): none yet since reset, OK of a write, OK of a read with its data, or
BUSERR. -/
inductive BusResponse where
  | none
  | ok
  | data (w : Word)
  | buserr
  deriving DecidableEq, Repr

/-- An encoder memory (R40, R41): the written cells as (index, byte) pairs, the indices strictly rising. An index that
is not listed is an unwritten cell. -/
abbrev Memory := List Host.Cell

/-- The state of the block. -/
structure State where
  /-- CFGD: the context is constructed (R22). -/
  cfgd : Bool
  /-- FSM: the decoder state (R23). -/
  fsm : Fsm
  /-- LENGTH: bytes written in the current frame (R24). -/
  length : Nat
  /-- CAPACITY: the allocated size of the receive buffer (R25). -/
  capacity : Nat
  /-- RB: the receive buffer's prefix RB[0:LENGTH) (R26). -/
  rb : List Byte
  /-- HALT: a growth failure has stopped decoding (R27). -/
  halt : Bool
  /-- RESULT: the outcome of the last finished command (R28). -/
  result : Result
  /-- PEND: the collaborator call that awaits the host's answer (R29). -/
  pend : Pend
  /-- RST_BYTE: the byte of the last frame anomaly (R30). -/
  rstByte : Byte
  /-- ALLOC_SIZE: the capacity last requested (R31). -/
  allocSize : Word
  /-- RB_IDX: the index of host reads of RB (R32). -/
  rbIdx : Word
  /-- DELIM: START, END and ESC (R34). -/
  delim : Delim
  /-- CTRL: the collaborators that the host provides (R35). -/
  ctrl : Ctrl
  /-- USER: opaque user data (R36). -/
  user : Word
  /-- ACT: the active set (R37). -/
  act : Table Bool
  /-- EM: the encode map (R38). -/
  em : Table Byte
  /-- DM: the decode map (R39). -/
  dm : Table Byte
  /-- EP: the encoder payload memory (R40). -/
  ep : Memory
  /-- EO: the encoder output memory (R41). -/
  eo : Memory
  /-- The event history, oldest entry first (R151). -/
  history : List HistoryEntry
  /-- The model's own: the block's parameters (R8, R45). -/
  params : Params
  /-- The model's own: what the host does next, first step first (R45). -/
  script : List HostInput
  /-- The model's own: the response to the last bus transaction (R107). -/
  bus : BusResponse
  /-- The model's own: how many free bytes have been drawn (U2). -/
  draws : Nat
  deriving DecidableEq, Repr

/-- The state after reset of a block with the parameters `p` (R46). -/
def State.resetWith (p : Params) : State where
  cfgd := false
  fsm := .idle
  length := 0
  capacity := 0
  rb := []
  halt := false
  result := { code := .ok, evt := .none, val := 0#24 }
  pend := .none
  rstByte := 0x00#8
  allocSize := 0#32
  rbIdx := 0#32
  delim := p.cfgReset.delim
  ctrl := { pktEn := false, rstEn := false, allocEn := false }
  user := 0#32
  act := p.cfgReset.act
  em := p.cfgReset.em
  dm := Vector.replicate 256 0x00#8
  ep := []
  eo := []
  history := []
  params := p
  script := []
  bus := .none
  draws := 0

/-- The state right after reset, with the default parameters (R8, R46). The model's own fields: nothing in the history,
no host input, no response, no draw (log entries 1 to 6). -/
def State.reset : State := State.resetWith Params.default

/-- Why the machine stops with a fault. -/
inductive Fault where
  /-- Raised by ENCODE when a cell of EP[0:n) was not written since reset: the spec fixes no byte and has a model fault
  (R205, U1). Safe: nothing about such a run can be proved. -/
  | encodeUnwrittenCell
  deriving DecidableEq, Repr

/-- Why an instruction is refused. -/
inductive Refusal where
  /-- Raised by an arm of exec whose instruction has no meaning yet. Safe. No arm raises it. -/
  | notModelled (mnemonic : String)
  deriving DecidableEq, Repr

end Sys2Proof.Machine
end

