-- ==== Sys2Proof/Machine/Flags.lean ====
section
/-! DEFINITION. The status flags and the words that show them: BUSY, STATUS (30_encoding.md R99), RESULT (R101) and the
numbers of the decoder states, pending events, result codes and event codes (R15, R99, R102, R103). -/

namespace Sys2Proof.Machine

/-- The number of a decoder state (R15). -/
def Fsm.bits : Fsm → BitVec 2
  | .idle => 0
  | .inFrame => 1
  | .escaping => 2

/-- The number of a pending event in STATUS.PEND (R99). -/
def Pend.bits : Pend → BitVec 2
  | .none => 0
  | .pkt => 1
  | .rst _ => 2
  | .alloc _ _ => 3

/-- The number of a result code (R102). -/
def ResultCode.bits : ResultCode → BitVec 4
  | .ok => 0
  | .errConfig => 1
  | .errResource => 2
  | .errOverflow => 3
  | .errState => 4
  | .errIllegal => 5
  | .errRange => 6
  | .errHalted => 7

/-- The number of a decoder event (R103). -/
def Evt.bits : Evt → BitVec 4
  | .none => 0
  | .start => 1
  | .ignore => 2
  | .packet => 3
  | .restartDup => 4
  | .escape => 5
  | .data => 6
  | .unesc => 7
  | .restartBadEsc => 8

/-- The event code that RESULT carries for a restart (R29). -/
def RestartKind.evt : RestartKind → Evt
  | .dup => .restartDup
  | .badEsc => .restartBadEsc

/-- The event code that RESULT carries for an appended byte (R29). -/
def AppendKind.evt : AppendKind → Evt
  | .data => .data
  | .unesc => .unesc

/-- BUSY: 1 exactly when PEND is not NONE (R29, R44). -/
def busy (s : State) : Bool := s.pend != .none

/-- STATUS: BUSY, CFGD, FSM, HALT and PEND from bit 0 up; bits [31:7] read 0 (R99). -/
def statusWord (s : State) : Word :=
  0#25 ++ s.pend.bits ++ BitVec.ofBool s.halt ++ s.fsm.bits ++ BitVec.ofBool s.cfgd ++ BitVec.ofBool (busy s)

/-- RESULT: CODE, EVT and VAL from bit 0 up (R101). -/
def resultWord (r : Result) : Word := r.val ++ r.evt.bits ++ r.code.bits

end Sys2Proof.Machine
end

