-- ==== Sys2Proof/Machine/Operands.lean ====
section
/-! DEFINITION. The operands: the fields of a write's data word (30_encoding.md R100, R104, R105, 20_memory.md R61), the
words that show the same registers on a read, and the places of the address map that a read can name (R63). Reserved
bits are ignored on write and read 0. -/

namespace Sys2Proof.Machine

/-- CTRL from a data word (R100, R226). -/
def ctrlOf (d : Word) : Ctrl :=
  { pktEn := d.getLsbD 0, rstEn := d.getLsbD 1, allocEn := d.getLsbD 2 }

/-- DELIM from a data word (R100, R226). -/
def delimOf (d : Word) : Delim :=
  { startByte := d.extractLsb' 0 8, endByte := d.extractLsb' 8 8, escByte := d.extractLsb' 16 8 }

/-- ENT[v].CODE from a data word (R104). -/
def entCode (d : Word) : Byte := d.extractLsb' 0 8

/-- ENT[v].ACT from a data word (R104). -/
def entActive (d : Word) : Bool := d.getLsbD 8

/-- The byte of a byte window's data word (R61). -/
def byteOf (d : Word) : Byte := d.extractLsb' 0 8

/-- The answers of RESP (R105). -/
inductive Answer where
  | nothing
  | ack
  | grant
  | deny
  deriving DecidableEq, Repr

/-- RSP = D[1:0] (R105, R225). -/
def answerOf (d : Word) : Answer :=
  match (d.extractLsb' 0 2).toNat with
  | 0 => .nothing
  | 1 => .ack
  | 2 => .grant
  | _ => .deny

/-- A byte in bits [7:0] of a word, the other bits 0 (R12, R61). -/
def byteWord (b : Byte) : Word := b.setWidth 32

/-- CTRL as read (R100). -/
def ctrlWord (c : Ctrl) : Word :=
  0#29 ++ BitVec.ofBool c.allocEn ++ BitVec.ofBool c.rstEn ++ BitVec.ofBool c.pktEn

/-- DELIM as read (R100). -/
def delimWord (x : Delim) : Word := 0#8 ++ x.escByte ++ x.endByte ++ x.startByte

/-- ENT[v] as read (R104). -/
def entWord (active : Bool) (code : Byte) : Word := 0#23 ++ BitVec.ofBool active ++ code

/-- PARAM0: P_EO_SIZE in [31:16] and P_EP_SIZE in [15:0] (R42). -/
def param0Word (p : Params) : Word := BitVec.ofNat 16 p.eoSize ++ BitVec.ofNat 16 p.epSize

/-- PARAM1: P_CHECK_INJ in bit 8 and log2(P_RB_MAX) in [4:0] (R42). -/
def param1Word (p : Params) : Word :=
  0#23 ++ BitVec.ofBool p.checkInj ++ 0#3 ++ BitVec.ofNat 5 p.rbMaxLog2

/-- A place of the address map (R63). -/
inductive Target where
  | id
  | ctrl
  | delim
  | user
  | cmd
  | status
  | result
  | length
  | capacity
  | param0
  | param1
  | resp
  | rstByte
  | allocSize
  | rbIdx
  | rbData
  | ent (v : Byte)
  | dmap (v : Byte)
  | ep (i : Nat)
  | eo (i : Nat)
  deriving DecidableEq, Repr

/-- The register at offset 4 * k, k < 16 (R63). -/
def registerAt (k : Nat) : Option Target :=
  match k with
  | 0 => some .id
  | 1 => some .ctrl
  | 2 => some .delim
  | 3 => some .user
  | 4 => some .cmd
  | 5 => some .status
  | 6 => some .result
  | 7 => some .length
  | 8 => some .capacity
  | 9 => some .param0
  | 10 => some .param1
  | 11 => some .resp
  | 12 => some .rstByte
  | 13 => some .allocSize
  | 14 => some .rbIdx
  | 15 => some .rbData
  | _ => none

/-- The place at an address, or `none` where the address is misaligned or unmapped (R63, R222). -/
def targetAt (p : Params) (a : Addr) : Option Target :=
  let n := a.toNat
  if n % 4 ≠ 0 then none
  else if n < 0x400 then registerAt (n / 4)
  else if n < 0x800 then some (.ent (BitVec.ofNat 8 ((n - 0x400) / 4)))
  else if n < 0xC00 then some (.dmap (BitVec.ofNat 8 ((n - 0x800) / 4)))
  else if n < 0x10000 then none
  else if n < 0x20000 then
    if (n - 0x10000) / 4 < p.epSize then some (.ep ((n - 0x10000) / 4)) else none
  else if n < 0x30000 then
    if (n - 0x20000) / 4 < p.eoSize then some (.eo ((n - 0x20000) / 4)) else none
  else none

end Sys2Proof.Machine
end

