-- ==== Sys2Proof/Machine/Ops.lean ====
section
/-! DEFINITION. The named operations that the meanings share: the byte tables and the encoder memories, ending a command
(`finish`), posting an event (`post…`), answering a bus transaction, and the reset event. SLIPF takes no exceptions and
returns from none (60_exceptions.md R240, R252): an error of a command is a `finish` with its code, an error of a
transaction is `busError`. -/

namespace Sys2Proof.Machine

/-! ### Tables -/

/-- Entry `b` of a table (R11). -/
def tableGet {α : Type} (t : Table α) (b : Byte) : α := t[b.toNat]'b.isLt

/-- The table with entry `b` replaced (R11). -/
def tableSet {α : Type} (t : Table α) (b : Byte) (x : α) : Table α := t.set b.toNat x b.isLt

/-- Every byte value, ascending. -/
def allBytes : List Byte := (List.range 256).map (BitVec.ofNat 8)

/-! ### Encoder memories -/

/-- The byte of cell `i`, or `none` where the cell is unwritten (R40, R41). -/
def Memory.read : Memory → Nat → Option Byte
  | [], _ => none
  | (k, b) :: m, i => if k = i then some b else Memory.read m i

/-- Cell `i` written with `b`; the indices stay strictly rising. -/
def Memory.write : Memory → Nat → Byte → Memory
  | [], i, b => [(i, b)]
  | (k, c) :: m, i, b =>
    if i < k then (i, b) :: (k, c) :: m
    else if i = k then (i, b) :: m
    else (k, c) :: Memory.write m i b

/-- Bytes written to the cells from `i` on, in ascending order (R201). -/
def Memory.writeFrom : Memory → Nat → List Byte → Memory
  | m, _, [] => m
  | m, i, b :: bs => Memory.writeFrom (m.write i b) (i + 1) bs

/-- The `n` cells from `i` on, or `none` where one of them is unwritten (R201, R205). -/
def Memory.readFrom : Memory → Nat → Nat → Option (List Byte)
  | _, _, 0 => some []
  | m, i, n + 1 =>
    match m.read i, Memory.readFrom m (i + 1) n with
    | some b, some p => some (b :: p)
    | _, _ => none

/-- The canonical form: the indices strictly rising. -/
abbrev Memory.wf (m : Memory) : Prop := m.Pairwise fun x y => x.1 < y.1

/-! ### Ending a command, posting an event -/

/-- finish(code, evt, val): end the current command (R11, R101). -/
def finish (code : ResultCode) (evt : Evt) (val : BitVec 24) (s : State) : State :=
  { s with result := { code := code, evt := evt, val := val } }

/-- A command that ends in an error: no event and no value (R241). -/
def failWith (code : ResultCode) (s : State) : State := finish code .none 0#24 s

/-- An entry added to the event history (R151). -/
def record (e : HistoryEntry) (s : State) : State := { s with history := s.history ++ [e] }

/-- post(PKT): the packet is RB[0:LENGTH) with USER (R155). -/
def postPacket (s : State) : State := record (.packet s.user s.rb) { s with pend := .pkt }

/-- post(RST(evt)) for the anomaly byte in RST_BYTE (R165). -/
def postRestart (k : RestartKind) (s : State) : State := record (.restart s.rstByte) { s with pend := .rst k }

/-- ALLOC_SIZE <- size; post(ALLOC(x, evt)) (R164). -/
def postAlloc (size : Nat) (x : Byte) (k : AppendKind) (s : State) : State :=
  record (.allocRequest size) { s with allocSize := BitVec.ofNat 32 size, pend := .alloc x k }

/-! ### Bus responses -/

/-- The response of the current bus transaction (R107). -/
def respond (r : BusResponse) (s : State) : State := { s with bus := r }

/-- The OK response of a write (R107). -/
def replyOk (s : State) : State := respond .ok s

/-- The OK response of a read, with its data (R107). -/
def reply (w : Word) (s : State) : State := respond (.data w) s

/-- raise BUSERR: the transaction changes no state; its response is the only report (R11, R221). -/
def busError (s : State) : State := respond .buserr s

/-- A write of a locked register: BUSERR while CFGD = 1, else the write (R226). -/
def lockedWrite (write : State → State) (s : State) : State :=
  if s.cfgd then busError s else replyOk (write s)

/-- A read of an encoder memory: the byte of a written cell, or a free draw for an unwritten one (R230, R231, U2). -/
def readCell (m : Memory) (i : Nat) (s : State) : State :=
  match m.read i with
  | some b => reply (byteWord b) s
  | none => reply (byteWord (Config.freeByte s.draws)) { s with draws := s.draws + 1 }

/-! ### Reset -/

/-- The reset event (R270): every piece of state takes its value of R46. What is no state of the block stays: its
parameters, the host's further inputs, the history and the draw counter (log entry 5). -/
def hostReset (s : State) : State :=
  { State.resetWith s.params with script := s.script, history := s.history, draws := s.draws }

end Sys2Proof.Machine
end

