-- ==== Sys2Proof/Machine/Construct.lean ====
section
/-! DEFINITION. Construction and teardown (40_config.md): the decode map's derivation, INIT and DEINIT. -/

namespace Sys2Proof.Machine

/-- The derivation of DM (R122): clear every entry, then DM[EM[i]] <- i for i = 0 to 255 ascending. -/
@[irreducible] def deriveDm (em : Table Byte) : Table Byte :=
  allBytes.foldl (fun dm i => tableSet dm (tableGet em i) i) (Vector.replicate 256 0x00#8)

/-- The substitutes of the active bytes, in ascending order of the bytes. -/
def activeCodes (act : Table Bool) (em : Table Byte) : List Byte :=
  (allBytes.filter fun v => tableGet act v).map (tableGet em)

/-- injective_on_active(ACT, EM): no two active bytes share a substitute (R128). -/
def injectiveOnActive (act : Table Bool) (em : Table Byte) : Bool := decide (activeCodes act em).Nodup

/-- The ConfigurationError causes (a) to (e) (R124). -/
def configError (s : State) : Bool :=
  s.delim.escByte == s.delim.startByte || s.delim.escByte == s.delim.endByte
    || !s.ctrl.pktEn || !s.ctrl.allocEn
    || (s.params.checkInj && !injectiveOnActive s.act s.em)

/-- INIT (R125, R126). -/
def initContext (s : State) : State :=
  if s.cfgd then failWith .errState s
  else if configError s then failWith .errConfig s
  else
    finish .ok .none 0#24
      { s with
        dm := deriveDm s.em, fsm := .idle, length := 0, rb := [], capacity := 0, halt := false, cfgd := true }

/-- DEINIT (R127). -/
def deinitContext (s : State) : State :=
  if s.cfgd then
    finish .ok .none 0#24
      { s with capacity := 0, rb := [], fsm := .idle, length := 0, halt := false, cfgd := false }
  else failWith .errState s

/-- INIT, carried by a CMD write that answers OK (R92, R125). -/
def execInit (s : State) : Host.Outcome State Fault Refusal := .next (replyOk (initContext s))

/-- DEINIT, carried by a CMD write that answers OK (R92, R127). -/
def execDeinit (s : State) : Host.Outcome State Fault Refusal := .next (replyOk (deinitContext s))

end Sys2Proof.Machine
end

