-- ==== Sys2Proof/Machine/Decoder.lean ====
section
/-! DEFINITION. The decoder (41_decoder.md): DECB with the source's transition table, the growth of the receive buffer,
the host's answers to pending events, RESUME and RESTART. -/

namespace Sys2Proof.Machine

/-- The byte joins RB and the frame goes on: RB <- RB ++ [x]; LENGTH <- LENGTH + 1; FSM <- InFrame (R163, R167). -/
def storeByte (x : Byte) (s : State) : State :=
  { s with rb := s.rb ++ [x], length := s.length + 1, fsm := .inFrame }

/-- The capacity that a growth asks for: 256 at first, then double (R164). -/
def nextCapacity (capacity : Nat) : Nat := if capacity = 0 then Config.firstCapacity else 2 * capacity

/-- The growth path (R164): fail at once beyond P_RB_MAX, else ask the host's allocator. -/
def growBuffer (x : Byte) (k : AppendKind) (s : State) : State :=
  if s.params.rbMax < nextCapacity s.capacity then failWith .errResource { s with halt := true }
  else postAlloc (nextCapacity s.capacity) x k s

/-- append(x, evt) (R163, R164). -/
def appendByte (x : Byte) (k : AppendKind) (s : State) : State :=
  if s.length < s.capacity then finish .ok k.evt 0#24 (storeByte x s) else growBuffer x k s

/-- restart(b, evt) (R165). -/
def restartFrame (b : Byte) (k : RestartKind) (s : State) : State :=
  let s' := { s with rstByte := b, length := 0, rb := [], fsm := .idle }
  if s.ctrl.rstEn then postRestart k s' else finish .ok k.evt 0#24 s'

/-- Rows 1 and 2: a byte in Idle (R153, R154). -/
def decodeIdle (b : Byte) (s : State) : State :=
  if b = s.delim.startByte then finish .ok .start 0#24 { s with length := 0, rb := [], fsm := .inFrame }
  else finish .ok .ignore 0#24 s

/-- Rows 3 to 6: a byte in InFrame, compared with END, then START, then ESC (R155, R157, R158, R159, R162). -/
def decodeInFrame (b : Byte) (s : State) : State :=
  if b = s.delim.endByte then postPacket { s with fsm := .idle }
  else if b = s.delim.startByte then restartFrame b .dup s
  else if b = s.delim.escByte then finish .ok .escape 0#24 { s with fsm := .escaping }
  else appendByte b .data s

/-- Row 7: a byte in Escaping, decided by ACT[DM[b]] alone (R160, R161). -/
def decodeEscaping (b : Byte) (s : State) : State :=
  let d := tableGet s.dm b
  if tableGet s.act d then appendByte d .unesc s else restartFrame b .badEsc s

/-- DECB b (R152). -/
def decodeByte (b : Byte) (s : State) : State :=
  if !s.cfgd then failWith .errState s
  else if s.halt then failWith .errHalted s
  else
    match s.fsm with
    | .idle => decodeIdle b s
    | .inFrame => decodeInFrame b s
    | .escaping => decodeEscaping b s

/-- ACK of a PKT event (R166). -/
def ackPacket (s : State) : State := finish .ok .packet 0#24 { s with pend := .none }

/-- ACK of an RST event (R169). -/
def ackRestart (k : RestartKind) (s : State) : State := finish .ok k.evt 0#24 { s with pend := .none }

/-- GRANT of an ALLOC event: the capacity becomes ALLOC_SIZE and the byte is appended (R151, R167). -/
def grantAlloc (x : Byte) (k : AppendKind) (s : State) : State :=
  finish .ok k.evt 0#24
    (storeByte x (record (.allocAnswer true) { s with capacity := s.allocSize.toNat, pend := .none }))

/-- DENY of an ALLOC event: decoding halts and the byte is not consumed (R151, R168). -/
def denyAlloc (s : State) : State :=
  failWith .errResource (record (.allocAnswer false) { s with halt := true, pend := .none })

/-- A RESP write (R225): the answer must fit the pending event. -/
def answerPending (a : Answer) (s : State) : State :=
  match a, s.pend with
  | .nothing, _ => replyOk s
  | .ack, .pkt => replyOk (ackPacket s)
  | .ack, .rst k => replyOk (ackRestart k s)
  | .grant, .alloc x k => replyOk (grantAlloc x k s)
  | .deny, .alloc _ _ => replyOk (denyAlloc s)
  | _, _ => busError s

/-- RESUME (R170). -/
def resumeDecoding (s : State) : State :=
  if s.cfgd then finish .ok .none 0#24 { s with halt := false } else failWith .errState s

/-- RESTART (R171). -/
def restartDecoding (s : State) : State :=
  if s.cfgd then finish .ok .none 0#24 { s with length := 0, rb := [], fsm := .idle, halt := false }
  else failWith .errState s

/-- DECB, carried by a CMD write that answers OK (R92, R152). -/
def execDecb (b : Byte) (s : State) : Host.Outcome State Fault Refusal := .next (replyOk (decodeByte b s))

/-- RESUME, carried by a CMD write that answers OK (R92, R170). -/
def execResume (s : State) : Host.Outcome State Fault Refusal := .next (replyOk (resumeDecoding s))

/-- RESTART, carried by a CMD write that answers OK (R92, R171). -/
def execRestart (s : State) : Host.Outcome State Fault Refusal := .next (replyOk (restartDecoding s))

end Sys2Proof.Machine
end

