-- ==== Sys2Proof/Machine/Encoder.lean ====
section
/-! DEFINITION. The encoder (42_encoder.md): the stuffing function, the required length and ENCODE. -/

namespace Sys2Proof.Machine

/-- The bytes that one payload byte becomes (R206). -/
def stuffByte (act : Table Bool) (em : Table Byte) (esc : Byte) (b : Byte) : List Byte :=
  if tableGet act b then [esc, tableGet em b] else [b]

/-- stuffed(p) (R206). -/
def stuffed (act : Table Bool) (em : Table Byte) (esc : Byte) : List Byte → List Byte
  | [] => []
  | b :: p => stuffByte act em esc b ++ stuffed act em esc p

/-- The frame of a payload under a state's configuration: START, stuffed(p), END (R201, R206). -/
def frameOf (s : State) (p : List Byte) : List Byte :=
  [s.delim.startByte] ++ stuffed s.act s.em s.delim.escByte p ++ [s.delim.endByte]

/-- The required length N = 2 + n + a, a the number of active payload bytes (R203). -/
def requiredLength (act : Table Bool) (p : List Byte) : Nat :=
  2 + p.length + p.countP fun b => tableGet act b

/-- ENCODE n, C (R201): the errors in the order of R251; N is known before a cell is written (R202); an unwritten payload
cell faults (R205). -/
def encodePayload (n c : Nat) (s : State) : Host.Outcome State Fault Refusal :=
  if !s.cfgd then .next (failWith .errState s)
  else if s.params.epSize < n ∨ s.params.eoSize < c then .next (failWith .errRange s)
  else
    match s.ep.readFrom 0 n with
    | none => .fault .encodeUnwrittenCell
    | some p =>
      if c < requiredLength s.act p then .next (failWith .errOverflow s)
      else
        .next (finish .ok .none (BitVec.ofNat 24 (requiredLength s.act p))
          { s with eo := s.eo.writeFrom 0 (frameOf s p) })

/-- ENCODE, carried by a CMD write that answers OK (R92, R201). -/
def execEncode (n c : BitVec 14) (s : State) : Host.Outcome State Fault Refusal :=
  encodePayload n.toNat c.toNat (replyOk s)

end Sys2Proof.Machine
end

