-- ==== Sys2Proof/Machine/Bus.lean ====
section
/-! DEFINITION. The host's bus transactions (43_host_access.md): RD32, and WR32 by target. Each answers OK, OK with data,
or BUSERR. -/

namespace Sys2Proof.Machine

/-- A read of RB_DATA: RB[RB_IDX] while RB_IDX < LENGTH, else BUSERR (R229). -/
def readRbData (s : State) : State :=
  if s.rbIdx.toNat < s.length then
    match s.rb[s.rbIdx.toNat]? with
    | some b => reply (byteWord b) s
    | none => busError s
  else busError s

/-- A read of a mapped place (R223). -/
def readTarget (t : Target) (s : State) : State :=
  match t with
  | .id => reply Config.idValue s
  | .ctrl => reply (ctrlWord s.ctrl) s
  | .delim => reply (delimWord s.delim) s
  | .user => reply s.user s
  | .cmd => busError s
  | .status => reply (statusWord s) s
  | .result => reply (resultWord s.result) s
  | .length => reply (BitVec.ofNat 32 s.length) s
  | .capacity => reply (BitVec.ofNat 32 s.capacity) s
  | .param0 => reply (param0Word s.params) s
  | .param1 => reply (param1Word s.params) s
  | .resp => busError s
  | .rstByte => reply (byteWord s.rstByte) s
  | .allocSize => reply s.allocSize s
  | .rbIdx => reply s.rbIdx s
  | .rbData => readRbData s
  | .ent v => reply (entWord (tableGet s.act v) (tableGet s.em v)) s
  | .dmap v => reply (byteWord (tableGet s.dm v)) s
  | .ep i => readCell s.ep i s
  | .eo i => readCell s.eo i s

/-- RD32 A: the address checks come first (R222, R223). -/
def readWord (a : Addr) (s : State) : State :=
  match targetAt s.params a with
  | none => busError s
  | some t => readTarget t s

/-- A command word that is legal, run (R96). -/
def runCommand (c : Command) (s : State) : Host.Outcome State Fault Refusal :=
  match c with
  | .init => execInit s
  | .deinit => execDeinit s
  | .decb b => execDecb b s
  | .resume => execResume s
  | .restart => execRestart s
  | .encode n c => execEncode n c s

/-- A CMD write (R92, R224): BUSERR while an event is pending; an illegal word ends in ERR_ILLEGAL and changes nothing
else (R97). -/
def writeCommand (d : Word) (s : State) : Host.Outcome State Fault Refusal :=
  if busy s then .next (busError s)
  else
    match decodeCommand d with
    | .error _ => .next (replyOk (failWith .errIllegal s))
    | .ok c => runCommand c s

/-- A write of ENT[v] while CFGD = 0: EM[v] <- D[7:0], ACT[v] <- D[8], DM unchanged (R227). -/
def writeEntry (v : Byte) (d : Word) (s : State) : State :=
  { s with em := tableSet s.em v (entCode d), act := tableSet s.act v (entActive d) }

/-- RD32 (R223). -/
def execRd32 (a : Addr) (s : State) : Host.Outcome State Fault Refusal := .next (readWord a s)

/-- WR32 CTRL (R226). -/
def execWr32Ctrl (d : Word) (s : State) : Host.Outcome State Fault Refusal :=
  .next (lockedWrite (fun s => { s with ctrl := ctrlOf d }) s)

/-- WR32 DELIM (R226). -/
def execWr32Delim (d : Word) (s : State) : Host.Outcome State Fault Refusal :=
  .next (lockedWrite (fun s => { s with delim := delimOf d }) s)

/-- WR32 USER (R226). -/
def execWr32User (d : Word) (s : State) : Host.Outcome State Fault Refusal :=
  .next (lockedWrite (fun s => { s with user := d }) s)

/-- WR32 CMD (R224). -/
def execWr32Cmd (d : Word) (s : State) : Host.Outcome State Fault Refusal := writeCommand d s

/-- WR32 RESP (R225). -/
def execWr32Resp (d : Word) (s : State) : Host.Outcome State Fault Refusal := .next (answerPending (answerOf d) s)

/-- WR32 RB_IDX: never locked (R229). -/
def execWr32RbIdx (d : Word) (s : State) : Host.Outcome State Fault Refusal := .next (replyOk { s with rbIdx := d })

/-- WR32 ENT[v] (R226, R227). -/
def execWr32Ent (v : Byte) (d : Word) (s : State) : Host.Outcome State Fault Refusal :=
  .next (lockedWrite (writeEntry v d) s)

/-- WR32 EP[i]: BUSERR unless i < P_EP_SIZE (R230). -/
def execWr32Ep (i : BitVec 14) (d : Word) (s : State) : Host.Outcome State Fault Refusal :=
  if i.toNat < s.params.epSize then .next (replyOk { s with ep := s.ep.write i.toNat (byteOf d) }) else .next (busError s)

/-- WR32 EO[i]: BUSERR unless i < P_EO_SIZE (R231). -/
def execWr32Eo (i : BitVec 14) (d : Word) (s : State) : Host.Outcome State Fault Refusal :=
  if i.toNat < s.params.eoSize then .next (replyOk { s with eo := s.eo.write i.toNat (byteOf d) }) else .next (busError s)

/-- WR32 to a read-only register, or to an unmapped or misaligned address: BUSERR (R222, R228, R232). -/
def execWr32Ro (_a : Addr) (_d : Word) (s : State) : Host.Outcome State Fault Refusal := .next (busError s)

end Sys2Proof.Machine
end

