-- ==== Sys2Proof/Machine/Dispatch.lean ====
section
/-! DEFINITION. The dispatch: one arm for each constructor of Instr, each one call of that instruction's meaning. -/

namespace Sys2Proof.Machine

def exec (i : Instr) (s : State) : Host.Outcome State Fault Refusal :=
  match i with
  -- the commands (30_encoding.md R96)
  | .init => Sys2Proof.Machine.execInit s
  | .deinit => Sys2Proof.Machine.execDeinit s
  | .decb b => Sys2Proof.Machine.execDecb b s
  | .resume => Sys2Proof.Machine.execResume s
  | .restart => Sys2Proof.Machine.execRestart s
  | .encode n c => Sys2Proof.Machine.execEncode n c s
  -- the bus transactions (43_host_access.md)
  | .rd32 a => Sys2Proof.Machine.execRd32 a s
  | .wr32Ctrl d => Sys2Proof.Machine.execWr32Ctrl d s
  | .wr32Delim d => Sys2Proof.Machine.execWr32Delim d s
  | .wr32User d => Sys2Proof.Machine.execWr32User d s
  | .wr32Cmd d => Sys2Proof.Machine.execWr32Cmd d s
  | .wr32Resp d => Sys2Proof.Machine.execWr32Resp d s
  | .wr32RbIdx d => Sys2Proof.Machine.execWr32RbIdx d s
  | .wr32Ent v d => Sys2Proof.Machine.execWr32Ent v d s
  | .wr32Ep k d => Sys2Proof.Machine.execWr32Ep k d s
  | .wr32Eo k d => Sys2Proof.Machine.execWr32Eo k d s
  | .wr32Ro a d => Sys2Proof.Machine.execWr32Ro a d s

end Sys2Proof.Machine
end

