-- ==== Sys2Proof/Machine/Step.lean ====
section
/-! DEFINITION. The step: the block takes the host's next input (43_host_access.md R220, 70_reset_and_hazards.md R270).
With no input it is passive and nothing changes (R271). -/

namespace Sys2Proof.Machine

/-- One step: the host's next bus transaction is decoded and executed, or the block is reset. -/
def step (s : State) : Host.Outcome State Fault Refusal :=
  match s.script with
  | [] => .next s
  | .bus t :: rest => exec (decodeTransaction t) { s with script := rest }
  | .reset :: rest => .next (hostReset { s with script := rest })

/-- The host's next input becomes the transaction that makes the block run the table word `w` (log entry 3). -/
def State.withFetchWord (s : State) (nbits w : Nat) : State :=
  { s with script := .bus (fetchOfTable nbits w) :: s.script }

end Sys2Proof.Machine
end

