-- ==== Sys2Proof/Safety.lean ====
section
/-! DEFINITION. The terms claims are stated in: the invariant of 10_state.md R43, the well-formed configurations of
41_decoder.md R180, the mapped addresses and bus error causes of R222 and 60_exceptions.md R249, the host that feeds
bytes and grants every request (R173, R181), and the decode call of 30_encoding.md R109. -/

namespace Sys2Proof.Machine

/-! ### The invariant -/

/-- The invariant of every reachable state. The fields cite the clause of R43 they state; the others are inferences of
the model (log entry 15), DEDUCED from the rules they cite. -/
structure BlockInv (s : State) : Prop where
  /-- The parameters are legal (R8). -/
  params : s.params.wf
  /-- R43(a). -/
  length_le : s.length ≤ s.capacity
  /-- R43(a). -/
  capacity_le : s.capacity ≤ s.params.rbMax
  /-- R43(b). -/
  capacity_form : s.capacity = 0 ∨ ∃ k : Fin 24, s.capacity = 256 * 2 ^ k.val
  /-- R43(c). -/
  rb_length : s.rb.length = s.length
  /-- R43(d). -/
  unconfigured :
    s.cfgd = false → s.fsm = .idle ∧ s.length = 0 ∧ s.capacity = 0 ∧ s.halt = false ∧ s.pend = .none
  /-- R43(e). -/
  halted : s.halt = true → s.pend = .none
  /-- R43(f). -/
  alloc_pending :
    ∀ x k, s.pend = .alloc x k →
      s.length = s.capacity ∧
      s.allocSize.toNat = (if s.capacity = 0 then 256 else 2 * s.capacity) ∧
      s.allocSize.toNat ≤ s.params.rbMax
  /-- The decoder state while a growth request is pending: InFrame for a row 6 byte, Escaping for a row 7 byte (R164). -/
  alloc_fsm :
    ∀ x k, s.pend = .alloc x k → s.fsm = match k with | .data => .inFrame | .unesc => .escaping
  /-- R43(g). -/
  packet_pending : s.pend = .pkt → s.fsm = .idle
  /-- R43(g). -/
  restart_pending : ∀ k, s.pend = .rst k → s.fsm = .idle ∧ s.length = 0
  /-- A restart is posted only where the host has a restart sink (R165). -/
  restart_sink : ∀ k, s.pend = .rst k → s.ctrl.rstEn = true
  /-- What a successful INIT checked and derived still holds (R35, R74, R124, R276). -/
  configured :
    s.cfgd = true →
      s.ctrl.pktEn = true ∧ s.ctrl.allocEn = true ∧ s.delim.escByte ≠ s.delim.startByte ∧
      s.delim.escByte ≠ s.delim.endByte ∧ s.dm = deriveDm s.em
  /-- EP is in canonical form and has P_EP_SIZE cells (R40). -/
  ep_wf : s.ep.wf
  ep_bound : ∀ c ∈ s.ep, c.1 < s.params.epSize
  /-- EO is in canonical form and has P_EO_SIZE cells (R41). -/
  eo_wf : s.eo.wf
  eo_bound : ∀ c ∈ s.eo, c.1 < s.params.eoSize

/-! ### Well-formed configurations -/

/-- WF (R180): conditions (a), (b) and (c) on a configuration, DM derived from it. -/
structure WellFormedConfig (x : Delim) (act : Table Bool) (em : Table Byte) : Prop where
  esc_ne_start : x.escByte ≠ x.startByte
  esc_ne_end : x.escByte ≠ x.endByte
  start_active : tableGet act x.startByte = true
  end_active : tableGet act x.endByte = true
  esc_active : tableGet act x.escByte = true
  decodes : ∀ v, tableGet act v = true → tableGet (deriveDm em) (tableGet em v) = v

/-- WF+ (R180): WF and condition (d). -/
structure WellFormedPlus (x : Delim) (act : Table Bool) (em : Table Byte) : Prop extends
    WellFormedConfig x act em where
  others_inactive :
    ∀ c, (∀ v, tableGet act v = true → tableGet em v ≠ c) → tableGet act (tableGet (deriveDm em) c) = false

/-- c is the substitute of some active byte (R182). -/
def IsSubstitute (act : Table Bool) (em : Table Byte) (c : Byte) : Prop :=
  ∃ v, tableGet act v = true ∧ tableGet em v = c

/-- None of the causes (a) to (e) of a failed INIT holds (R124, R128). -/
def NoConfigError (s : State) : Prop :=
  s.delim.escByte ≠ s.delim.startByte ∧ s.delim.escByte ≠ s.delim.endByte ∧ s.ctrl.pktEn = true ∧
    s.ctrl.allocEn = true ∧
    (s.params.checkInj = true →
      ∀ v w, v ≠ w → tableGet s.act v = true → tableGet s.act w = true → tableGet s.em v ≠ tableGet s.em w)

/-- A command word that R97 calls illegal: OP is 0x0 or 0x7 to 0xF, or a reserved bit of a format N or B word is 1. -/
def IllegalWord (w : Word) : Prop :=
  w.extractLsb' 28 4 = 0#4 ∨ 7#4 ≤ w.extractLsb' 28 4 ∨
    ((w.extractLsb' 28 4 = 1#4 ∨ w.extractLsb' 28 4 = 2#4 ∨ w.extractLsb' 28 4 = 4#4 ∨ w.extractLsb' 28 4 = 5#4) ∧
      w.extractLsb' 0 28 ≠ 0#28) ∨
    (w.extractLsb' 28 4 = 3#4 ∧ w.extractLsb' 8 20 ≠ 0#20)

/-- The payload p is what EP[0:n) holds, every cell written (R201, R205). -/
def PayloadAt (m : Memory) (n : Nat) (p : List Byte) : Prop :=
  p.length = n ∧ ∀ j < n, m.read j = p[j]?

/-! ### The address map and the bus errors -/

/-- A mapped, aligned address (R63, R222). -/
def Mapped (p : Params) (a : Addr) : Prop :=
  a.toNat % 4 = 0 ∧
    (a.toNat < 0x040 ∨ (0x400 ≤ a.toNat ∧ a.toNat < 0xC00) ∨
      (0x10000 ≤ a.toNat ∧ a.toNat < 0x10000 + 4 * p.epSize) ∨
      (0x20000 ≤ a.toNat ∧ a.toNat < 0x20000 + 4 * p.eoSize))

/-- A read-only place (R232): ID, STATUS, RESULT, LENGTH, CAPACITY, PARAM0, PARAM1, RST_BYTE, ALLOC_SIZE, RB_DATA, DMAP. -/
def ReadOnly (a : Addr) : Prop :=
  a.toNat = 0x000 ∨ (0x014 ≤ a.toNat ∧ a.toNat ≤ 0x028) ∨ a.toNat = 0x030 ∨ a.toNat = 0x034 ∨ a.toNat = 0x03C ∨
    (0x800 ≤ a.toNat ∧ a.toNat < 0xC00)

/-- A configuration register (R226): CTRL, DELIM, USER or an ENT entry. -/
def Configuration (a : Addr) : Prop :=
  a.toNat = 0x004 ∨ a.toNat = 0x008 ∨ a.toNat = 0x00C ∨ (0x400 ≤ a.toNat ∧ a.toNat < 0x800)

/-- An answer RSP that fits the pending event (R105, R225). -/
def AnswerFits (rsp : BitVec 2) (p : Pend) : Prop :=
  match p with
  | .none => rsp = 0
  | .pkt => rsp = 0 ∨ rsp = 1
  | .rst _ => rsp = 0 ∨ rsp = 1
  | .alloc _ _ => rsp = 0 ∨ rsp = 2 ∨ rsp = 3

/-- The causes of BUSERR, (a) to (h) of R249. -/
def BusErrorCause (s : State) : Transaction → Prop
  | .read a =>
    ¬ Mapped s.params a ∨ a = 0x010 ∨ a = 0x02C ∨ (a = 0x03C ∧ s.length ≤ s.rbIdx.toNat)
  | .write a d =>
    ¬ Mapped s.params a ∨ ReadOnly a ∨ (Configuration a ∧ s.cfgd = true) ∨ (a = 0x010 ∧ s.pend ≠ .none) ∨
      (a = 0x02C ∧ ¬ AnswerFits (d.extractLsb' 0 2) s.pend)

/-- The next host input writes the command word of `c` to CMD while nothing is pending, so the command runs (R92). -/
def Issues (s : State) (c : Command) : Prop :=
  ∃ d rest, s.script = .bus (.write 0x010 d) :: rest ∧ decodeCommand d = .ok c ∧ s.pend = .none

/-- The next host input is a reset. -/
def Resets (s : State) : Prop := ∃ rest, s.script = .reset :: rest

/-- The next host input is a write to an address. -/
def WritesTo (s : State) (a : Addr) : Prop := ∃ d rest, s.script = .bus (.write a d) :: rest

/-! ### The host that grants every request -/

/-- Go on with the next state, or stop where the machine stops. -/
def andThen (o : Host.Outcome State Fault Refusal) (f : State → Host.Outcome State Fault Refusal) :
    Host.Outcome State Fault Refusal :=
  match o with
  | .next s => f s
  | .fault r => .fault r
  | .refused r => .refused r

/-- The host acknowledges a packet or a restart and grants a growth request, by a RESP write (R105, R181). -/
def hostAnswers (s : State) : Host.Outcome State Fault Refusal :=
  match s.pend with
  | .none => .next s
  | .pkt => exec (.wr32Resp 1) s
  | .rst _ => exec (.wr32Resp 1) s
  | .alloc _ _ => exec (.wr32Resp 2) s

/-- One byte fed: the CMD write of DECB b, then the answer (R109). -/
def feedByte (b : Byte) (s : State) : Host.Outcome State Fault Refusal :=
  andThen (exec (.wr32Cmd (encodeCommand (.decb b))) s) hostAnswers

/-- The bytes one after another, to the last, with no stop at ERR_RESOURCE: a halted decoder ignores them (R173, R181). -/
def feedBytes : List Byte → State → Host.Outcome State Fault Refusal
  | [], s => .next s
  | b :: bs, s => andThen (feedByte b s) (feedBytes bs)

/-- The largest LENGTH of the states that the fed bytes pass through, the first among them (R173). -/
def largestLength : List Byte → State → Nat
  | [], s => s.length
  | b :: bs, s =>
    match feedByte b s with
    | .next t => max s.length (largestLength bs t)
    | _ => s.length

/-- A packet or a restart entry of the history: the source's callback invocations (R151). -/
def HistoryEntry.isCallback : HistoryEntry → Bool
  | .packet _ _ => true
  | .restart _ => true
  | .allocRequest _ => false
  | .allocAnswer _ => false

/-! ### The decode call -/

/-- The reads of READPKT: for each index, RB_IDX is written and RB_DATA is read (R109). -/
def readPacket : List Nat → State → Host.Outcome State Fault Refusal
  | [], s => .next s
  | j :: js, s =>
    andThen (andThen (exec (.wr32RbIdx (BitVec.ofNat 32 j)) s) (exec (.rd32 0x0003C))) (readPacket js)

/-- The host of DECODE answers the posted event: READPKT and ACK, ACK, or GRANT or DENY as its allocator decides (R109).
The allocator sees the whole state, its past requests in the history among it, so that any sequence of answers can be
given (log entry 18). -/
def answerEvent (grants : State → Bool) (s : State) : Host.Outcome State Fault Refusal :=
  match s.pend with
  | .none => .next s
  | .pkt => andThen (andThen (exec (.rd32 0x0001C) s) (readPacket (List.range s.length))) (exec (.wr32Resp 1))
  | .rst _ => exec (.wr32Resp 1) s
  | .alloc _ _ => exec (.wr32Resp (if grants s then 2 else 3)) s

/-- One byte of DECODE: the CMD write of DECB b, then the answer (R109). -/
def decodeOne (grants : State → Bool) (b : Byte) (s : State) : Host.Outcome State Fault Refusal :=
  andThen (exec (.wr32Cmd (encodeCommand (.decb b))) s) (answerEvent grants)

/-- `k` bytes were consumed before those that an outcome counts. -/
def consumedBefore (k : Nat) (o : Host.Outcome (Nat × State) Fault Refusal) : Host.Outcome (Nat × State) Fault Refusal :=
  match o with
  | .next (n, s) => .next (k + n, s)
  | .fault r => .fault r
  | .refused r => .refused r

/-- DECODE (R109): the bytes one after another; at the first ERR_RESOURCE the call stops, and that byte and the rest are
not consumed. It returns how many bytes were consumed. -/
def decodeCall (grants : State → Bool) : List Byte → State → Host.Outcome (Nat × State) Fault Refusal
  | [], s => .next (0, s)
  | b :: bs, s =>
    match decodeOne grants b s with
    | .next t =>
      if t.result.code = .errResource then .next (0, t) else consumedBefore 1 (decodeCall grants bs t)
    | .fault r => .fault r
    | .refused r => .refused r

/-- One decode call for each chunk, in turn, until a call stops short of its chunk's end (R172). -/
def decodeCalls (grants : State → Bool) : List (List Byte) → State → Host.Outcome (Nat × State) Fault Refusal
  | [], s => .next (0, s)
  | c :: cs, s =>
    match decodeCall grants c s with
    | .next (n, t) => if n < c.length then .next (n, t) else consumedBefore n (decodeCalls grants cs t)
    | .fault r => .fault r
    | .refused r => .refused r

end Sys2Proof.Machine
end

