-- ==== Sys2Proof/Certificates/Slice0/Obligations.lean ====
section
/-! DEFINITION. The statements for the provers. Each cites the rule of spec/ it formalises; a statement that rests on a
choice of the model names the log entry. `{ s with … }` says a whole frame: every field that is not named keeps its
value, the two memories among them. -/

open Sys2Proof Sys2Proof.Machine

/-! ### Encoding -/

/-- A sanity statement: words written out from R96, R107 and the patterns of the opcode table decode to the instruction
they stand for. -/
def Obligations.WrittenOutWordsDecode : Prop :=
  decode (.command 0x10000000#32) = .ok .init ∧
  decode (.command 0x20000000#32) = .ok .deinit ∧
  decode (.command 0x300000C0#32) = .ok (.decb 0xC0#8) ∧
  decode (.command 0x40000000#32) = .ok .resume ∧
  decode (.command 0x50000000#32) = .ok .restart ∧
  decode (.command 0x60008010#32) = .ok (.encode 2#14 16#14) ∧
  decode (.bus (.read 0x00014#18)) = .ok (.rd32 0x00014#18) ∧
  decode (.bus (.write 0x0076C#18 0x1DD#32)) = .ok (.wr32Ent 0xDB#8 0x1DD#32) ∧
  decode (.bus (.write 0x10004#18 0x01#32)) = .ok (.wr32Ep 1#14 0x01#32) ∧
  decode (.bus (.write 0x28004#18 0xAB#32)) = .ok (.wr32Eo 8193#14 0xAB#32) ∧
  decode (.bus (.write 0x00014#18 0#32)) = .ok (.wr32Ro 0x00014#18 0#32)

/-- HEADLINE (a). R91 to R98, R107: the decoder reads back every well-formed instruction, each operand at every value. -/
def Obligations.EncodedInstructionDecodesBack : Prop :=
  ∀ i : Instr, i.wf = true → decode (encode i) = .ok i

/-- The other direction: what decodes is well formed and has the one encoding it was read from. -/
def Obligations.DecodedCodeIsItsEncoding : Prop :=
  ∀ (c : Code) (i : Instr), decode c = .ok i → i.wf = true ∧ encode i = c

/-- R96 and R98: a word selects a command exactly by the match and mask of its row, with the operands of its fields. -/
def Obligations.CommandSelectedByMatchAndMask : Prop :=
  ∀ (w : Word) (c : Command),
    decodeCommand w = .ok c ↔
      (c = .init ∧ w &&& 0xFFFFFFFF#32 = 0x10000000#32) ∨
      (c = .deinit ∧ w &&& 0xFFFFFFFF#32 = 0x20000000#32) ∨
      (c = .decb (w.extractLsb' 0 8) ∧ w &&& 0xFFFFFF00#32 = 0x30000000#32) ∨
      (c = .resume ∧ w &&& 0xFFFFFFFF#32 = 0x40000000#32) ∨
      (c = .restart ∧ w &&& 0xFFFFFFFF#32 = 0x50000000#32) ∨
      (c = .encode (w.extractLsb' 14 14) (w.extractLsb' 0 14) ∧ w &&& 0xF0000000#32 = 0x60000000#32)

/-! ### The step -/

/-- A step runs the decoded instruction (R70, R220): the host's next transaction is decoded and executed on the state
that has the rest of the host's inputs; with no input the block is passive (R271; log entry 2). A table word placed by
withFetchWord is run as its instruction, a command word while no event is pending (log entry 3). -/
def Obligations.StepRunsTheDecodedInstruction : Prop :=
  (∀ (s : State) (t : Transaction) (rest : List HostInput) (i : Instr),
    s.script = .bus t :: rest → decode (.bus t) = .ok i → step s = exec i { s with script := rest }) ∧
  (∀ s : State, s.script = [] → step s = .next s) ∧
  (∀ (s : State) (nbits w : Nat) (i : Instr),
    decodeTableWord nbits w = some i → (nbits = 32 → s.pend = .none) →
      step (s.withFetchWord nbits w) = exec i s)

/-- R92 and R224: a CMD write is refused while an event is pending; otherwise it runs the command its data word selects,
and it completes OK whatever the command's outcome. ENCODE needs a readable payload (R205). -/
def Obligations.CmdWriteRunsTheCommand : Prop :=
  (∀ (s : State) (d : Word), s.pend ≠ .none → exec (.wr32Cmd d) s = .next { s with bus := .buserr }) ∧
  (∀ (s : State) (d : Word) (c : Command), s.pend = .none → decodeCommand d = .ok c →
    exec (.wr32Cmd d) s = exec c.toInstr s ∧
    ((∀ n k, c = .encode n k → ∀ j < n.toNat, ∃ b, s.ep.read j = some b) →
      ∃ t, exec (.wr32Cmd d) s = .next t ∧ t.bus = .ok))

/-- R97, R246: an illegal command word changes no state except RESULT, whatever the state of the context. -/
def Obligations.IllegalCommandWordChangesOnlyResult : Prop :=
  ∀ (s : State) (d : Word), s.pend = .none → IllegalWord d →
    exec (.wr32Cmd d) s = .next { s with result := ⟨.errIllegal, .none, 0#24⟩, bus := .ok }

/-- R46 and R270: the reset event leaves every piece of state at its reset value, whatever the state before; the
configuration comes from P_CFG_RESET, a pending event is dropped and the history gets no entry. ID, PARAM0 and PARAM1
read as before. That the history, the parameters and the host's further inputs stay is the model's choice (log entry 5). -/
def Obligations.HostResetLeavesTheResetValues : Prop :=
  ∀ (s : State) (rest : List HostInput), s.script = .reset :: rest →
    ∃ t, step s = .next t ∧
      t.cfgd = false ∧ t.fsm = .idle ∧ t.length = 0 ∧ t.capacity = 0 ∧ t.rb = [] ∧ t.halt = false ∧
      resultWord t.result = 0x00000000#32 ∧ t.pend = .none ∧ t.rstByte = 0x00#8 ∧ t.allocSize = 0#32 ∧
      t.rbIdx = 0#32 ∧ t.delim = s.params.cfgReset.delim ∧
      t.ctrl.pktEn = false ∧ t.ctrl.rstEn = false ∧ t.ctrl.allocEn = false ∧ t.user = 0x00000000#32 ∧
      t.act = s.params.cfgReset.act ∧ t.em = s.params.cfgReset.em ∧
      (∀ v, tableGet t.dm v = 0x00#8) ∧ (∀ i, t.ep.read i = none) ∧ (∀ i, t.eo.read i = none) ∧
      t.history = s.history ∧ t.params = s.params ∧ t.script = rest ∧
      ∀ a ∈ [0x00000#18, 0x00024#18, 0x00028#18], ∃ w,
        exec (.rd32 a) s = .next { s with bus := .data w } ∧ exec (.rd32 a) t = .next { t with bus := .data w }

/-- R33: the default P_CFG_RESET, with which State.reset starts: START = END = 0xC0, ESC = 0xDB, 0xC0 and 0xDB active
with the substitutes 0xDC and 0xDD, every other entry inactive with 0x00. -/
def Obligations.DefaultResetConfiguration : Prop :=
  State.reset.params.cfgReset = ⟨State.reset.delim, State.reset.act, State.reset.em⟩ ∧
  State.reset.delim.startByte = 0xC0#8 ∧ State.reset.delim.endByte = 0xC0#8 ∧ State.reset.delim.escByte = 0xDB#8 ∧
  ∀ v : Byte,
    tableGet State.reset.act v = (v == 0xC0#8 || v == 0xDB#8) ∧
    tableGet State.reset.em v = if v = 0xC0#8 then 0xDC#8 else if v = 0xDB#8 then 0xDD#8 else 0x00#8

/-! ### Invariants and whole-machine rules -/

/-- R43 at reset, for every legal choice of the parameters. -/
def Obligations.InvariantHoldsAtReset : Prop :=
  (∀ p : Params, p.wf → BlockInv (State.resetWith p)) ∧ BlockInv State.reset

/-- HEADLINE (b). R43: every step, with any host input, keeps the invariant. The clauses of BlockInv beyond R43 are the
model's inferences (log entry 15). -/
def Obligations.StepKeepsTheInvariant : Prop :=
  ∀ s t : State, BlockInv s → step s = .next t → BlockInv t

/-- R205 and R240: nothing is refused, and the only stop is ENCODE in a context, in range, over an unwritten cell. -/
def Obligations.OnlyEncodeOfUnwrittenCellStops : Prop :=
  ∀ s : State,
    (∀ r, step s ≠ .refused r) ∧
    ((∃ r, step s = .fault r) ↔
      ∃ n k, Issues s (.encode n k) ∧ s.cfgd = true ∧ n.toNat ≤ s.params.epSize ∧ k.toNat ≤ s.params.eoSize ∧
        ∃ j < n.toNat, s.ep.read j = none)

/-- R249: a transaction is answered BUSERR exactly on the causes (a) to (h). -/
def Obligations.BusErrorExactlyOnItsCauses : Prop :=
  ∀ (s t : State) (x : Transaction), BlockInv s → exec (decodeTransaction x) s = .next t →
    (t.bus = .buserr ↔ BusErrorCause s x)

/-- R221: a transaction that raises BUSERR changes no state; the response is its only report. -/
def Obligations.BusErrorChangesNothing : Prop :=
  ∀ (s t : State) (x : Transaction), exec (decodeTransaction x) s = .next t → t.bus = .buserr →
    t = { s with bus := .buserr }

/-- R66: a read completes at every address and changes no state of the block. Beside the response, only the model's
draw counter moves, and only where the answer is a free byte (U2; log entry 6). -/
def Obligations.ReadsChangeNoState : Prop :=
  ∀ (s : State) (a : Addr),
    ∃ r n, exec (.rd32 a) s = .next { s with bus := r, draws := n } ∧
      (n = s.draws ∨ (n = s.draws + 1 ∧ r = .data (byteWord (Config.freeByte s.draws))))

/-- R69, R226 and R276: while a context exists, no input but a reset changes the configuration or the decode map. -/
def Obligations.ConfigurationIsLockedInAContext : Prop :=
  ∀ s t : State, s.cfgd = true → ¬ Resets s → step s = .next t →
    t.delim = s.delim ∧ t.ctrl = s.ctrl ∧ t.user = s.user ∧ t.act = s.act ∧ t.em = s.em ∧ t.dm = s.dm

/-- R39: only a successful INIT and reset write the decode map. -/
def Obligations.OnlyInitAndResetWriteTheDecodeMap : Prop :=
  ∀ s t : State, step s = .next t → t.dm ≠ s.dm →
    Resets s ∨ (Issues s .init ∧ s.cfgd = false ∧ t.cfgd = true ∧ NoConfigError s)

/-- R27 and R44: HALT is sticky; only RESUME, RESTART, DEINIT and reset clear it. -/
def Obligations.OnlyRecoveryClearsHalt : Prop :=
  ∀ s t : State, BlockInv s → s.halt = true → step s = .next t → t.halt = false →
    Resets s ∨ Issues s .resume ∨ Issues s .restart ∨ Issues s .deinit

/-- R22: CFGD is set only by INIT and cleared only by DEINIT and reset. -/
def Obligations.OnlyInitAndDeinitMoveTheContext : Prop :=
  ∀ s t : State, step s = .next t → t.cfgd ≠ s.cfgd →
    (s.cfgd = false ∧ Issues s .init) ∨ (s.cfgd = true ∧ (Issues s .deinit ∨ Resets s))

/-- R278 and R273: a pending event stays, and blocks every command, until a RESP write or a reset. -/
def Obligations.PendingEventWaitsForItsAnswer : Prop :=
  ∀ s t : State, s.pend ≠ .none → step s = .next t → ¬ Resets s → ¬ WritesTo s 0x0002C#18 →
    t.pend = s.pend ∧ t.fsm = s.fsm ∧ t.length = s.length ∧ t.capacity = s.capacity ∧ t.rb = s.rb ∧
    t.halt = s.halt ∧ t.result = s.result ∧ (WritesTo s 0x00010#18 → t.bus = .buserr)

/-- R25: only a granted request, an answer with RSP = 2, raises CAPACITY, to ALLOC_SIZE; it falls only to 0, by DEINIT
or reset. -/
def Obligations.CapacityGrowsOnlyByGrant : Prop :=
  ∀ s t : State, BlockInv s → step s = .next t → t.capacity ≠ s.capacity →
    ((∃ d rest, s.script = .bus (.write 0x0002C#18 d) :: rest ∧ d.extractLsb' 0 2 = 2#2) ∧
      (∃ x k, s.pend = .alloc x k) ∧ s.capacity < t.capacity ∧ t.capacity = s.allocSize.toNat) ∨
    (t.capacity = 0 ∧ (Issues s .deinit ∨ Resets s))

/-- R32, R36, R40: RB_IDX, USER and EP change only by the host's own writes to them and by reset. -/
def Obligations.HostRegistersChangeOnlyByTheHost : Prop :=
  ∀ s t : State, step s = .next t → ¬ Resets s →
    (t.rbIdx ≠ s.rbIdx → WritesTo s 0x00038#18) ∧
    (t.user ≠ s.user → WritesTo s 0x0000C#18) ∧
    (t.ep ≠ s.ep → ∃ i : BitVec 14, WritesTo s (epAddr i) ∧ i.toNat < s.params.epSize) ∧
    (t.eo ≠ s.eo → (∃ i : BitVec 14, WritesTo s (eoAddr i) ∧ i.toNat < s.params.eoSize) ∨
      ∃ n k, Issues s (.encode n k))

/-- R42: no step changes a parameter, and ID, PARAM0 and PARAM1 always read the constants. -/
def Obligations.IdentificationIsConstant : Prop :=
  (∀ s t : State, step s = .next t → t.params = s.params) ∧
  ∀ s : State, s.params.wf →
    exec (.rd32 0x00000#18) s = .next { s with bus := .data 0x534C4950#32 } ∧
    (∃ w, exec (.rd32 0x00024#18) s = .next { s with bus := .data w } ∧
      (w.extractLsb' 0 16).toNat = s.params.epSize ∧ (w.extractLsb' 16 16).toNat = s.params.eoSize) ∧
    (∃ w, exec (.rd32 0x00028#18) s = .next { s with bus := .data w } ∧
      2 ^ (w.extractLsb' 0 5).toNat = s.params.rbMax ∧ w.extractLsb' 5 3 = 0#3 ∧
      w.getLsbD 8 = s.params.checkInj ∧ w.extractLsb' 9 23 = 0#23)

/-- R184: a DECB that takes row 3 posts exactly one packet, and no other DECB posts one. -/
def Obligations.OnePacketPerClosedFrame : Prop :=
  ∀ (s : State) (b : Byte), s.pend = .none →
    ∃ t new, exec (.decb b) s = .next t ∧ t.history = s.history ++ new ∧
      if s.cfgd = true ∧ s.halt = false ∧ s.fsm = .inFrame ∧ b = s.delim.endByte then
        t.pend = .pkt ∧ new = [.packet s.user s.rb]
      else t.pend ≠ .pkt ∧ ∀ u p, HistoryEntry.packet u p ∉ new

/-- R200: ENCODE neither reads nor writes the decoder: two states that agree on what the encoder reads give the same
outcome, and the decoder's registers stay. -/
def Obligations.EncoderIgnoresTheDecoder : Prop :=
  ∀ (s t s' : State) (n c : BitVec 14),
    t.cfgd = s.cfgd → t.params = s.params → t.ep = s.ep → t.eo = s.eo → t.delim = s.delim → t.act = s.act →
    t.em = s.em → exec (.encode n c) s = .next s' →
    exec (.encode n c) t = .next { t with eo := s'.eo, result := s'.result, bus := .ok } ∧
    s'.fsm = s.fsm ∧ s'.length = s.length ∧ s'.capacity = s.capacity ∧ s'.rb = s.rb ∧ s'.halt = s.halt ∧
    s'.pend = s.pend ∧ s'.ep = s.ep

/-! ### Reading registers -/

/-- R99: STATUS, field by field. -/
def Obligations.StatusReadsTheFlags : Prop :=
  ∀ s : State,
    ∃ w, exec (.rd32 0x00014#18) s = .next { s with bus := .data w } ∧
      (w.getLsbD 0 = true ↔ s.pend ≠ .none) ∧
      w.getLsbD 1 = s.cfgd ∧
      (w.extractLsb' 2 2).toNat = (match s.fsm with | .idle => 0 | .inFrame => 1 | .escaping => 2) ∧
      w.getLsbD 4 = s.halt ∧
      (w.extractLsb' 5 2).toNat = (match s.pend with | .none => 0 | .pkt => 1 | .rst _ => 2 | .alloc _ _ => 3) ∧
      w.extractLsb' 7 25 = 0#25

/-- R101 to R103: RESULT, with the numbers of the result and event codes. -/
def Obligations.ResultReadsCodeEventValue : Prop :=
  ∀ s : State,
    ∃ w, exec (.rd32 0x00018#18) s = .next { s with bus := .data w } ∧
      (w.extractLsb' 0 4).toNat =
        (match s.result.code with
          | .ok => 0 | .errConfig => 1 | .errResource => 2 | .errOverflow => 3 | .errState => 4 | .errIllegal => 5
          | .errRange => 6 | .errHalted => 7) ∧
      (w.extractLsb' 4 4).toNat =
        (match s.result.evt with
          | .none => 0 | .start => 1 | .ignore => 2 | .packet => 3 | .restartDup => 4 | .escape => 5 | .data => 6
          | .unesc => 7 | .restartBadEsc => 8) ∧
      w.extractLsb' 8 24 = s.result.val

/-- R100, R104, R228: the configuration registers and the table windows read their fields, the other bits 0, whether or
not they are locked. -/
def Obligations.ConfigurationReadsItsFields : Prop :=
  ∀ s : State,
    (∃ w, exec (.rd32 0x00004#18) s = .next { s with bus := .data w } ∧
      w.getLsbD 0 = s.ctrl.pktEn ∧ w.getLsbD 1 = s.ctrl.rstEn ∧ w.getLsbD 2 = s.ctrl.allocEn ∧
      w.extractLsb' 3 29 = 0#29) ∧
    (∃ w, exec (.rd32 0x00008#18) s = .next { s with bus := .data w } ∧
      w.extractLsb' 0 8 = s.delim.startByte ∧ w.extractLsb' 8 8 = s.delim.endByte ∧
      w.extractLsb' 16 8 = s.delim.escByte ∧ w.extractLsb' 24 8 = 0#8) ∧
    exec (.rd32 0x0000C#18) s = .next { s with bus := .data s.user } ∧
    (∀ v : Byte, ∃ w, exec (.rd32 (BitVec.ofNat 18 (0x400 + 4 * v.toNat))) s = .next { s with bus := .data w } ∧
      w.extractLsb' 0 8 = tableGet s.em v ∧ w.getLsbD 8 = tableGet s.act v ∧ w.extractLsb' 9 23 = 0#23) ∧
    (∀ v : Byte, ∃ w, exec (.rd32 (BitVec.ofNat 18 (0x800 + 4 * v.toNat))) s = .next { s with bus := .data w } ∧
      w.extractLsb' 0 8 = tableGet s.dm v ∧ w.extractLsb' 8 24 = 0#24)

/-- R106: LENGTH, CAPACITY, RST_BYTE, ALLOC_SIZE and RB_IDX read their values, which fit. -/
def Obligations.DecoderRegistersReadTheirValues : Prop :=
  ∀ s : State, BlockInv s →
    (∃ w, exec (.rd32 0x0001C#18) s = .next { s with bus := .data w } ∧ w.toNat = s.length) ∧
    (∃ w, exec (.rd32 0x00020#18) s = .next { s with bus := .data w } ∧ w.toNat = s.capacity) ∧
    (∃ w, exec (.rd32 0x00030#18) s = .next { s with bus := .data w } ∧
      w.extractLsb' 0 8 = s.rstByte ∧ w.extractLsb' 8 24 = 0#24) ∧
    exec (.rd32 0x00034#18) s = .next { s with bus := .data s.allocSize } ∧
    exec (.rd32 0x00038#18) s = .next { s with bus := .data s.rbIdx }

/-- R229: RB_IDX is never locked; RB_DATA reads RB[RB_IDX] below LENGTH, and raises BUSERR at LENGTH and above and on
every write. -/
def Obligations.RbDataReadsTheBuffer : Prop :=
  ∀ s : State, BlockInv s →
    (∀ d, exec (.wr32RbIdx d) s = .next { s with rbIdx := d, bus := .ok }) ∧
    (∀ h : s.rbIdx.toNat < s.rb.length, ∃ w,
      exec (.rd32 0x0003C#18) s = .next { s with bus := .data w } ∧
      w.extractLsb' 0 8 = s.rb[s.rbIdx.toNat] ∧ w.extractLsb' 8 24 = 0#24) ∧
    (s.length ≤ s.rbIdx.toNat → exec (.rd32 0x0003C#18) s = .next { s with bus := .buserr }) ∧
    (∀ d, exec (decodeTransaction (.write 0x0003C#18 d)) s = .next { s with bus := .buserr })

/-- R222, R64 and R68: a misaligned or unmapped address is refused, for a read and for a write, in every state. -/
def Obligations.UnmappedAccessIsRefused : Prop :=
  ∀ (s : State) (a : Addr), s.params.wf → ¬ Mapped s.params a →
    exec (.rd32 a) s = .next { s with bus := .buserr } ∧
    ∀ d, exec (decodeTransaction (.write a d)) s = .next { s with bus := .buserr }

/-! ### Writing registers and memories -/

/-- R226 and R227: a write of a configuration register stores its fields while CFGD = 0 and raises BUSERR while
CFGD = 1. An ENT write changes the one entry and not DM. -/
def Obligations.ConfigurationWritesStoreOrAreLocked : Prop :=
  ∀ (s : State) (d : Word) (v : Byte),
    (s.cfgd = false →
      exec (.wr32Ctrl d) s = .next { s with ctrl := ⟨d.getLsbD 0, d.getLsbD 1, d.getLsbD 2⟩, bus := .ok } ∧
      exec (.wr32Delim d) s =
        .next { s with delim := ⟨d.extractLsb' 0 8, d.extractLsb' 8 8, d.extractLsb' 16 8⟩, bus := .ok } ∧
      exec (.wr32User d) s = .next { s with user := d, bus := .ok } ∧
      ∃ act em, exec (.wr32Ent v d) s = .next { s with act := act, em := em, bus := .ok } ∧
        ∀ x, tableGet em x = (if x = v then d.extractLsb' 0 8 else tableGet s.em x) ∧
          tableGet act x = (if x = v then d.getLsbD 8 else tableGet s.act x)) ∧
    (s.cfgd = true →
      exec (.wr32Ctrl d) s = .next { s with bus := .buserr } ∧
      exec (.wr32Delim d) s = .next { s with bus := .buserr } ∧
      exec (.wr32User d) s = .next { s with bus := .buserr } ∧
      exec (.wr32Ent v d) s = .next { s with bus := .buserr })

/-- R230: the EP window. A write stores one cell and leaves every other; a read answers the cell's byte, or some byte
where it was never written, for every value of the draw counter; beyond P_EP_SIZE both are refused (R222). That such a
read moves the model's own draw counter on by one is the model's choice (log entry 6); U2 has the draw change no state. -/
def Obligations.EpWindowHoldsBytes : Prop :=
  ∀ (s : State) (i : BitVec 14) (d : Word), s.params.wf →
    (i.toNat < s.params.epSize →
      (∃ m, exec (.wr32Ep i d) s = .next { s with ep := m, bus := .ok } ∧
        ∀ j, m.read j = if j = i.toNat then some (d.extractLsb' 0 8) else s.ep.read j) ∧
      (∀ b, s.ep.read i.toNat = some b →
        exec (.rd32 (epAddr i)) s = .next { s with bus := .data (b.setWidth 32) }) ∧
      (s.ep.read i.toNat = none →
        ∃ b : Byte, exec (.rd32 (epAddr i)) s =
          .next { s with bus := .data (b.setWidth 32), draws := s.draws + 1 })) ∧
    (s.params.epSize ≤ i.toNat →
      exec (.wr32Ep i d) s = .next { s with bus := .buserr } ∧
      exec (.rd32 (epAddr i)) s = .next { s with bus := .buserr })

/-- R231: the EO window works as the EP window does; beyond P_EO_SIZE a read and a write are refused (R222). That a read
of an unwritten cell moves the model's own draw counter on by one is the model's choice (log entry 6). -/
def Obligations.EoWindowHoldsBytes : Prop :=
  ∀ (s : State) (i : BitVec 14) (d : Word), s.params.wf →
    (i.toNat < s.params.eoSize →
      (∃ m, exec (.wr32Eo i d) s = .next { s with eo := m, bus := .ok } ∧
        ∀ j, m.read j = if j = i.toNat then some (d.extractLsb' 0 8) else s.eo.read j) ∧
      (∀ b, s.eo.read i.toNat = some b →
        exec (.rd32 (eoAddr i)) s = .next { s with bus := .data (b.setWidth 32) }) ∧
      (s.eo.read i.toNat = none →
        ∃ b : Byte, exec (.rd32 (eoAddr i)) s =
          .next { s with bus := .data (b.setWidth 32), draws := s.draws + 1 })) ∧
    (s.params.eoSize ≤ i.toNat →
      exec (.wr32Eo i d) s = .next { s with bus := .buserr } ∧
      exec (.rd32 (eoAddr i)) s = .next { s with bus := .buserr })

/-- R222, R228 and R232: a write of a read-only register or of DMAP, and a read of CMD or RESP, raise BUSERR and change
nothing. That the row WR32_RO stands for a write to every address no other row takes, the misaligned and unmapped ones
among them, is the model's inference (log entry 11); its effect there is R222's. -/
def Obligations.ReadOnlyWritesAndWriteOnlyReadsAreRefused : Prop :=
  (∀ (s : State) (a : Addr) (d : Word), (Instr.wr32Ro a d).wf = true →
    exec (.wr32Ro a d) s = .next { s with bus := .buserr }) ∧
  (∀ (s : State) (a : Addr) (d : Word), ReadOnly a →
    exec (decodeTransaction (.write a d)) s = .next { s with bus := .buserr }) ∧
  (∀ s : State, exec (.rd32 0x00010#18) s = .next { s with bus := .buserr } ∧
    exec (.rd32 0x0002C#18) s = .next { s with bus := .buserr })

/-! ### Answers to pending events -/

/-- R166, R169: ACK ends a packet or a restart event and changes nothing but PEND and RESULT. RSP is D[1:0]. -/
def Obligations.AckEndsPacketAndRestart : Prop :=
  ∀ (s : State) (d : Word), d.extractLsb' 0 2 = 1#2 →
    (s.pend = .pkt →
      exec (.wr32Resp d) s = .next { s with pend := .none, result := ⟨.ok, .packet, 0#24⟩, bus := .ok }) ∧
    (s.pend = .rst .dup →
      exec (.wr32Resp d) s = .next { s with pend := .none, result := ⟨.ok, .restartDup, 0#24⟩, bus := .ok }) ∧
    (s.pend = .rst .badEsc →
      exec (.wr32Resp d) s = .next { s with pend := .none, result := ⟨.ok, .restartBadEsc, 0#24⟩, bus := .ok })

/-- R167: GRANT takes the new capacity, appends the byte and goes on in the frame. -/
def Obligations.GrantAppendsTheByte : Prop :=
  ∀ (s : State) (d : Word) (x : Byte) (k : AppendKind), d.extractLsb' 0 2 = 2#2 → s.pend = .alloc x k →
    exec (.wr32Resp d) s =
      .next { s with
        capacity := s.allocSize.toNat, rb := s.rb ++ [x], length := s.length + 1, fsm := .inFrame, pend := .none,
        result := ⟨.ok, match k with | .data => .data | .unesc => .unesc, 0#24⟩,
        history := s.history ++ [.allocAnswer true], bus := .ok }

/-- R168: DENY halts decoding; the decoder keeps its state and the byte is not consumed. -/
def Obligations.DenyHaltsWithoutConsuming : Prop :=
  ∀ (s : State) (d : Word) (x : Byte) (k : AppendKind), d.extractLsb' 0 2 = 3#2 → s.pend = .alloc x k →
    exec (.wr32Resp d) s =
      .next { s with
        halt := true, pend := .none, result := ⟨.errResource, .none, 0#24⟩,
        history := s.history ++ [.allocAnswer false], bus := .ok }

/-- R225, R105: RSP 0 has no effect; an answer that does not fit the pending event raises BUSERR. -/
def Obligations.OtherAnswersDoNothing : Prop :=
  ∀ (s : State) (d : Word),
    (d.extractLsb' 0 2 = 0#2 → exec (.wr32Resp d) s = .next { s with bus := .ok }) ∧
    (¬ AnswerFits (d.extractLsb' 0 2) s.pend → exec (.wr32Resp d) s = .next { s with bus := .buserr })

/-! ### Commands -/

/-- R125, R124, R126, R128 and R122: INIT constructs the context, its decode map the largest i with EM[i] = c for every
c, 0x00 where there is none; on a cause of R124, in a context, or with a reserved bit set it changes only RESULT. -/
def Obligations.InitConstructsTheContext : Prop :=
  ∀ s : State,
    (s.cfgd = false → NoConfigError s →
      ∃ dm, exec .init s =
          .next { s with
            dm := dm, fsm := .idle, length := 0, rb := [], capacity := 0, halt := false, cfgd := true,
            result := ⟨.ok, .none, 0#24⟩, bus := .ok } ∧
        ∀ c, (tableGet s.em (tableGet dm c) = c ∧ ∀ j, tableGet s.em j = c → j.toNat ≤ (tableGet dm c).toNat) ∨
          ((∀ j, tableGet s.em j ≠ c) ∧ tableGet dm c = 0x00#8)) ∧
    (s.cfgd = false → ¬ NoConfigError s →
      exec .init s = .next { s with result := ⟨.errConfig, .none, 0#24⟩, bus := .ok }) ∧
    (s.cfgd = true → exec .init s = .next { s with result := ⟨.errState, .none, 0#24⟩, bus := .ok }) ∧
    (∀ d : Word, d.extractLsb' 28 4 = 1#4 → d.extractLsb' 0 28 ≠ 0#28 → s.pend = .none →
      exec (.wr32Cmd d) s = .next { s with result := ⟨.errIllegal, .none, 0#24⟩, bus := .ok })

/-- R123(b): an active byte's substitute decodes to it exactly when no larger byte has the same substitute. -/
def Obligations.DecodeMapInvertsUncollidedSubstitutes : Prop :=
  ∀ (s t : State) (v : Byte), s.cfgd = false → exec .init s = .next t → t.cfgd = true →
    (tableGet t.dm (tableGet s.em v) = v ↔ ∀ i : Byte, v.toNat < i.toNat → tableGet s.em i ≠ tableGet s.em v)

/-- R127: DEINIT releases the buffer and ends the context; the configuration, DM and the encoder memories keep their
values. Outside a context it is ERR_STATE. -/
def Obligations.DeinitEndsTheContext : Prop :=
  ∀ s : State,
    (s.cfgd = true →
      exec .deinit s =
        .next { s with
          capacity := 0, rb := [], fsm := .idle, length := 0, halt := false, cfgd := false,
          result := ⟨.ok, .none, 0#24⟩, bus := .ok }) ∧
    (s.cfgd = false → exec .deinit s = .next { s with result := ⟨.errState, .none, 0#24⟩, bus := .ok })

/-- R245: a command in the wrong lifecycle state ends in ERR_STATE and changes only RESULT. -/
def Obligations.WrongLifecycleStateChangesOnlyResult : Prop :=
  ∀ (s : State) (i : Instr),
    ((s.cfgd = true ∧ i = .init) ∨
      (s.cfgd = false ∧
        (i = .deinit ∨ (∃ b, i = .decb b) ∨ i = .resume ∨ i = .restart ∨ ∃ n c, i = .encode n c))) →
    exec i s = .next { s with result := ⟨.errState, .none, 0#24⟩, bus := .ok }

/-- R153 and R154: a byte in Idle. Only START opens a frame; every other byte is ignored. -/
def Obligations.DecbInIdle : Prop :=
  ∀ (s : State) (b : Byte), s.cfgd = true → s.halt = false → s.fsm = .idle →
    (b = s.delim.startByte →
      exec (.decb b) s =
        .next { s with length := 0, rb := [], fsm := .inFrame, result := ⟨.ok, .start, 0#24⟩, bus := .ok }) ∧
    (b ≠ s.delim.startByte →
      exec (.decb b) s = .next { s with result := ⟨.ok, .ignore, 0#24⟩, bus := .ok })

/-- R155 and R157: END in InFrame posts the packet, also where START = END; LENGTH, RB and RESULT stay. -/
def Obligations.DecbEndPostsThePacket : Prop :=
  ∀ (s : State) (b : Byte), s.cfgd = true → s.halt = false → s.fsm = .inFrame → b = s.delim.endByte →
    exec (.decb b) s =
      .next { s with fsm := .idle, pend := .pkt, history := s.history ++ [.packet s.user s.rb], bus := .ok }

/-- R158, R161 and R165: a duplicate START in InFrame, or an escape that decodes to an inactive byte, restarts: the frame
is dropped, RST_BYTE is the received byte, and the event is posted where the host has a restart sink. -/
def Obligations.DecbAnomalyRestarts : Prop :=
  ∀ (s : State) (b : Byte) (k : RestartKind), s.cfgd = true → s.halt = false →
    ((k = .dup ∧ s.fsm = .inFrame ∧ b = s.delim.startByte ∧ b ≠ s.delim.endByte) ∨
      (k = .badEsc ∧ s.fsm = .escaping ∧ tableGet s.act (tableGet s.dm b) = false)) →
    (s.ctrl.rstEn = true →
      exec (.decb b) s =
        .next { s with
          rstByte := b, length := 0, rb := [], fsm := .idle, pend := .rst k,
          history := s.history ++ [.restart b], bus := .ok }) ∧
    (s.ctrl.rstEn = false →
      exec (.decb b) s =
        .next { s with
          rstByte := b, length := 0, rb := [], fsm := .idle,
          result := ⟨.ok, match k with | .dup => .restartDup | .badEsc => .restartBadEsc, 0#24⟩, bus := .ok })

/-- R159: ESC in InFrame begins an escape; nothing is appended. -/
def Obligations.DecbEscBeginsAnEscape : Prop :=
  ∀ (s : State) (b : Byte), s.cfgd = true → s.halt = false → s.fsm = .inFrame → b = s.delim.escByte →
    b ≠ s.delim.endByte → b ≠ s.delim.startByte →
    exec (.decb b) s = .next { s with fsm := .escaping, result := ⟨.ok, .escape, 0#24⟩, bus := .ok }

/-- R160, R162, R163 and R164: a data byte in InFrame, or the decoded byte of a valid escape, is appended where there is
room; else growth is requested, or fails at once beyond P_RB_MAX. -/
def Obligations.DecbAppendsOrGrows : Prop :=
  ∀ (s : State) (b x : Byte) (k : AppendKind), s.cfgd = true → s.halt = false →
    ((k = .data ∧ s.fsm = .inFrame ∧ b ≠ s.delim.endByte ∧ b ≠ s.delim.startByte ∧ b ≠ s.delim.escByte ∧ x = b) ∨
      (k = .unesc ∧ s.fsm = .escaping ∧ x = tableGet s.dm b ∧ tableGet s.act x = true)) →
    (s.length < s.capacity →
      exec (.decb b) s =
        .next { s with
          rb := s.rb ++ [x], length := s.length + 1, fsm := .inFrame,
          result := ⟨.ok, match k with | .data => .data | .unesc => .unesc, 0#24⟩, bus := .ok }) ∧
    (∀ n, n = (if s.capacity = 0 then 256 else 2 * s.capacity) → s.length = s.capacity →
      (n ≤ s.params.rbMax →
        exec (.decb b) s =
          .next { s with
            allocSize := BitVec.ofNat 32 n, pend := .alloc x k, history := s.history ++ [.allocRequest n],
            bus := .ok }) ∧
      (s.params.rbMax < n →
        exec (.decb b) s =
          .next { s with halt := true, result := ⟨.errResource, .none, 0#24⟩, bus := .ok }))

/-- R27, R248: while HALT = 1, DECB consumes nothing. -/
def Obligations.DecbWhileHaltedConsumesNothing : Prop :=
  ∀ (s : State) (b : Byte), s.cfgd = true → s.halt = true →
    exec (.decb b) s = .next { s with result := ⟨.errHalted, .none, 0#24⟩, bus := .ok }

/-- R174: with LENGTH at P_RB_MAX, every append fails with ERR_RESOURCE, that of a data byte and that of a valid
escape. -/
def Obligations.FullBufferNeverTakesAByte : Prop :=
  ∀ (s : State) (b : Byte), BlockInv s → s.cfgd = true → s.halt = false → s.length = s.params.rbMax →
    ((s.fsm = .inFrame ∧ b ≠ s.delim.endByte ∧ b ≠ s.delim.startByte ∧ b ≠ s.delim.escByte) ∨
      (s.fsm = .escaping ∧ tableGet s.act (tableGet s.dm b) = true)) →
    exec (.decb b) s = .next { s with halt := true, result := ⟨.errResource, .none, 0#24⟩, bus := .ok }

/-- R170: RESUME clears HALT and keeps the frame. -/
def Obligations.ResumeKeepsTheFrame : Prop :=
  ∀ s : State,
    (s.cfgd = true →
      exec .resume s = .next { s with halt := false, result := ⟨.ok, .none, 0#24⟩, bus := .ok }) ∧
    (s.cfgd = false → exec .resume s = .next { s with result := ⟨.errState, .none, 0#24⟩, bus := .ok }) ∧
    (∀ d : Word, d.extractLsb' 28 4 = 4#4 → d.extractLsb' 0 28 ≠ 0#28 → s.pend = .none →
      exec (.wr32Cmd d) s = .next { s with result := ⟨.errIllegal, .none, 0#24⟩, bus := .ok })

/-- R171: RESTART drops the frame, clears HALT, keeps CAPACITY and RST_BYTE, and posts no event. -/
def Obligations.RestartDropsTheFrame : Prop :=
  ∀ s : State,
    (s.cfgd = true →
      exec .restart s =
        .next { s with
          length := 0, rb := [], fsm := .idle, halt := false, result := ⟨.ok, .none, 0#24⟩, bus := .ok }) ∧
    (s.cfgd = false → exec .restart s = .next { s with result := ⟨.errState, .none, 0#24⟩, bus := .ok }) ∧
    (∀ d : Word, d.extractLsb' 28 4 = 5#4 → d.extractLsb' 0 28 ≠ 0#28 → s.pend = .none →
      exec (.wr32Cmd d) s = .next { s with result := ⟨.errIllegal, .none, 0#24⟩, bus := .ok })

/-- R201, R202, R204 to R206: ENCODE. Outside a context, ERR_STATE; out of range, ERR_RANGE; over an unwritten cell, the
fault; frame too long, ERR_OVERFLOW with no cell written; else EO[0:N) is the frame, every other cell stays, and
RESULT.VAL is N. -/
def Obligations.EncodeStuffsThePayload : Prop :=
  ∀ (s : State) (n c : BitVec 14),
    (s.cfgd = false → exec (.encode n c) s = .next { s with result := ⟨.errState, .none, 0#24⟩, bus := .ok }) ∧
    (s.cfgd = true → s.params.epSize < n.toNat ∨ s.params.eoSize < c.toNat →
      exec (.encode n c) s = .next { s with result := ⟨.errRange, .none, 0#24⟩, bus := .ok }) ∧
    (s.cfgd = true → n.toNat ≤ s.params.epSize → c.toNat ≤ s.params.eoSize →
      ((∃ j < n.toNat, s.ep.read j = none) → exec (.encode n c) s = .fault .encodeUnwrittenCell) ∧
      ∀ p, PayloadAt s.ep n.toNat p →
        ∀ N out, N = 2 + n.toNat + p.countP (fun b => tableGet s.act b) →
          out = [s.delim.startByte] ++
              p.flatMap (fun b => if tableGet s.act b then [s.delim.escByte, tableGet s.em b] else [b]) ++
              [s.delim.endByte] →
          (c.toNat < N →
            exec (.encode n c) s = .next { s with result := ⟨.errOverflow, .none, 0#24⟩, bus := .ok }) ∧
          (N ≤ c.toNat →
            ∃ m v, exec (.encode n c) s = .next { s with eo := m, result := ⟨.ok, .none, v⟩, bus := .ok } ∧
              v.toNat = N ∧ out.length = N ∧ ∀ j, m.read j = if j < N then out[j]? else s.eo.read j))

/-! ### Laws of the decoder and the encoder -/

/-- R180: the reset configuration is well formed, WF+. -/
def Obligations.ResetConfigurationIsWellFormed : Prop :=
  WellFormedPlus State.reset.delim State.reset.act State.reset.em

/-- R172, with R109, R168 and R248: for any host allocator, the decode calls of the chunks and the one call of the whole
end in the same state, the history in it, after the same count of consumed bytes. Where the call stops short, it is at
ERR_RESOURCE with HALT set: the byte left over has changed no frame and called no sink, and whatever bytes are fed
after it change nothing but RESULT and the response. The allocator's form is log entry 18. -/
def Obligations.ChunkingDoesNotMatter : Prop :=
  ∀ (grants : State → Bool) (chunks : List (List Byte)) (s : State), s.pend = .none →
    ∃ n t, decodeCall grants chunks.flatten s = .next (n, t) ∧ decodeCalls grants chunks s = .next (n, t) ∧
      n ≤ chunks.flatten.length ∧ t.pend = .none ∧
      (n < chunks.flatten.length →
        t.halt = true ∧ t.result = ⟨.errResource, .none, 0#24⟩ ∧
        (∃ u new, decodeCall grants (chunks.flatten.take n) s = .next (n, u) ∧
          t.fsm = u.fsm ∧ t.length = u.length ∧ t.capacity = u.capacity ∧ t.rb = u.rb ∧ t.rstByte = u.rstByte ∧
          t.history = u.history ++ new ∧ ∀ e ∈ new, e.isCallback = false) ∧
        ∀ bs, ∃ k r x, decodeCall grants bs t = .next (k, { t with result := r, bus := x }))

/-- R181: under WF, feeding the encoder's frame of p to an idle decoder delivers exactly p, once, and no
restart. -/
def Obligations.DecodingAnEncodedPayloadReturnsIt : Prop :=
  ∀ (s : State) (p : List Byte), BlockInv s → WellFormedConfig s.delim s.act s.em → s.cfgd = true → s.fsm = .idle →
    s.halt = false → s.pend = .none → p.length ≤ s.params.rbMax →
    ∃ t new, feedBytes (frameOf s p) s = .next t ∧ t.history = s.history ++ new ∧
      new.filter HistoryEntry.isCallback = [.packet s.user p] ∧
      t.fsm = .idle ∧ t.length = p.length ∧ t.rb = p ∧ t.pend = .none ∧ t.halt = false

/-- R182: under WF+ with START ≠ END, an escape of a byte that is no substitute restarts once and delivers nothing. -/
def Obligations.InvalidEscapeDropsTheFrame : Prop :=
  ∀ (s : State) (x : Byte), BlockInv s → WellFormedPlus s.delim s.act s.em → s.cfgd = true → s.fsm = .idle →
    s.halt = false → s.pend = .none → ¬ IsSubstitute s.act s.em x → s.delim.startByte ≠ s.delim.endByte →
    ∃ t, feedBytes [s.delim.startByte, s.delim.escByte, x, s.delim.endByte] s = .next t ∧
      t.fsm = .idle ∧ t.length = 0 ∧ t.rb = [] ∧ t.rstByte = x ∧ t.pend = .none ∧
      t.history = s.history ++ (if s.ctrl.rstEn then [.restart x] else [])

/-- R183: with START ≠ END, START, START gives one restart and a following frame decodes; with START = END it is an empty
packet and no restart. -/
def Obligations.MalformedFrameRecovers : Prop :=
  ∀ (s : State) (p : List Byte), BlockInv s → WellFormedConfig s.delim s.act s.em → s.cfgd = true → s.fsm = .idle →
    s.halt = false → s.pend = .none → p.length ≤ s.params.rbMax →
    (s.delim.startByte ≠ s.delim.endByte →
      (∃ t, feedBytes [s.delim.startByte, s.delim.startByte] s = .next t ∧ t.fsm = .idle ∧ t.length = 0 ∧
        t.history = s.history ++ (if s.ctrl.rstEn then [.restart s.delim.startByte] else [])) ∧
      ∃ t new, feedBytes ([s.delim.startByte, s.delim.startByte] ++ frameOf s p) s = .next t ∧
        t.history = s.history ++ new ∧
        new.filter HistoryEntry.isCallback =
          (if s.ctrl.rstEn then [.restart s.delim.startByte] else []) ++ [.packet s.user p]) ∧
    (s.delim.startByte = s.delim.endByte →
      ∃ t, feedBytes [s.delim.startByte, s.delim.startByte] s = .next t ∧ t.fsm = .idle ∧ t.length = 0 ∧
        t.history = s.history ++ [.packet s.user []])

/-- R173 for a context with no buffer yet, as after INIT (log entry 13 says why not more): with every request granted,
CAPACITY ends as the least of 0 and the 256 * 2^k that holds the largest LENGTH reached. -/
def Obligations.CapacityIsTheLeastThatHolds : Prop :=
  ∀ (s t : State) (bs : List Byte), BlockInv s → s.cfgd = true → s.pend = .none → s.capacity = 0 →
    feedBytes bs s = .next t →
    largestLength bs s ≤ t.capacity ∧
    (t.capacity = 0 ∨ ∃ k, t.capacity = 256 * 2 ^ k) ∧
    (largestLength bs s = 0 → t.capacity = 0) ∧
    ∀ k, largestLength bs s ≤ 256 * 2 ^ k → t.capacity ≤ 256 * 2 ^ k

/-- R207: under WF, a frame is START, then single bytes that are no delimiter and no ESC and pairs of ESC and the
substitute of an active byte, then END. -/
def Obligations.DelimitersInAFrameAreEscaped : Prop :=
  ∀ (s : State) (p : List Byte), WellFormedConfig s.delim s.act s.em →
    ∃ chunks : List (List Byte),
      frameOf s p = [s.delim.startByte] ++ chunks.flatten ++ [s.delim.endByte] ∧
      ∀ c ∈ chunks,
        (∃ b, c = [b] ∧ b ≠ s.delim.startByte ∧ b ≠ s.delim.endByte ∧ b ≠ s.delim.escByte) ∨
        (∃ v, tableGet s.act v = true ∧ c = [s.delim.escByte, tableGet s.em v])
end

