-- ==== Sys2Proof/Laws/Codec.lean ====
section
/-! SUPPORT. The laws of the codec: the values of encoded words and addresses, that a command's word decodes to it, and
the one inversion lemma of the write decoder. -/

namespace Sys2Proof

/-- The value of a concatenation. -/
theorem toNat_concat {m n : Nat} (x : BitVec m) (y : BitVec n) :
    (x ++ y).toNat = x.toNat * 2 ^ n + y.toNat := by
  rw [BitVec.toNat_append, Nat.shiftLeft_eq, Nat.mul_comm, Nat.two_pow_add_eq_or_of_lt y.isLt]

/-- ENT[v] lies at 0x400 + 4 * v (R63). -/
theorem entAddr_toNat (v : Byte) : (entAddr v).toNat = 0x400 + 4 * v.toNat := by
  show (0x01#8 ++ v ++ 0#2 : BitVec (8 + 8 + 2)).toNat = _
  rw [toNat_concat, toNat_concat]
  simp
  omega

/-- EP[i] lies at 0x10000 + 4 * i (R63). -/
theorem epAddr_toNat (i : BitVec 14) : (epAddr i).toNat = 0x10000 + 4 * i.toNat := by
  show (0x1#2 ++ i ++ 0#2 : BitVec (2 + 14 + 2)).toNat = _
  rw [toNat_concat, toNat_concat]
  simp
  omega

/-- EO[i] lies at 0x20000 + 4 * i (R63). -/
theorem eoAddr_toNat (i : BitVec 14) : (eoAddr i).toNat = 0x20000 + 4 * i.toNat := by
  show (0x2#2 ++ i ++ 0#2 : BitVec (2 + 14 + 2)).toNat = _
  rw [toNat_concat, toNat_concat]
  simp
  omega

/-- The word of DECB b (R108). -/
theorem encodeCommand_decb_toNat (b : Byte) : (encodeCommand (.decb b)).toNat = 0x30000000 + b.toNat := by
  show (0x3#4 ++ 0#20 ++ b : BitVec (4 + 20 + 8)).toNat = _
  rw [toNat_concat, toNat_concat]
  simp

/-- The word of ENCODE n, C (R108). -/
theorem encodeCommand_encode_toNat (n k : BitVec 14) :
    (encodeCommand (.encode n k)).toNat = 0x60000000 + n.toNat * 2 ^ 14 + k.toNat := by
  show (0x6#4 ++ n ++ k : BitVec (4 + 14 + 14)).toNat = _
  rw [toNat_concat, toNat_concat]
  simp
  omega

/-- A command's word selects the command (R96). -/
theorem decodeCommand_encodeCommand (c : Command) : decodeCommand (encodeCommand c) = .ok c := by
  cases c with
  | init => rfl
  | deinit => rfl
  | resume => rfl
  | restart => rfl
  | decb b =>
    have hb := b.isLt
    have h1 : opField (encodeCommand (.decb b)) = 3#4 := by
      apply BitVec.eq_of_toNat_eq
      simp [opField, encodeCommand_decb_toNat, Nat.shiftRight_eq_div_pow]
      omega
    have h2 : (encodeCommand (.decb b)).extractLsb' 8 20 = 0#20 := by
      apply BitVec.eq_of_toNat_eq
      simp [encodeCommand_decb_toNat, Nat.shiftRight_eq_div_pow]
      omega
    have h3 : (encodeCommand (.decb b)).extractLsb' 0 8 = b := by
      apply BitVec.eq_of_toNat_eq
      simp [encodeCommand_decb_toNat]
      omega
    simp [decodeCommand, h1, formatB, h2, h3]
  | encode n k =>
    have hn := n.isLt
    have hk := k.isLt
    have h1 : opField (encodeCommand (.encode n k)) = 6#4 := by
      apply BitVec.eq_of_toNat_eq
      simp [opField, encodeCommand_encode_toNat, Nat.shiftRight_eq_div_pow]
      omega
    have h2 : (encodeCommand (.encode n k)).extractLsb' 14 14 = n := by
      apply BitVec.eq_of_toNat_eq
      simp [encodeCommand_encode_toNat, Nat.shiftRight_eq_div_pow]
      omega
    have h3 : (encodeCommand (.encode n k)).extractLsb' 0 14 = k := by
      apply BitVec.eq_of_toNat_eq
      simp [encodeCommand_encode_toNat]
      omega
    simp [decodeCommand, h1, formatE, h2, h3]

/-- The masks of R96 keep a word's high bits: what is left is the word without its low `n` bits. -/
theorem toNat_and_highMask (w : Word) (n : Nat) :
    (w &&& BitVec.allOnes 32 <<< n).toNat = w.toNat / 2 ^ n * 2 ^ n := by
  have e : w &&& BitVec.allOnes 32 <<< n = (w >>> n) <<< n := by
    ext i hi
    by_cases h : i < n
    · simp [h]
    · have : n + (i - n) = i := by omega
      rw [BitVec.getElem_and, BitVec.getElem_shiftLeft, BitVec.getElem_shiftLeft]
      simp only [h, decide_false, Bool.not_false, Bool.true_and, BitVec.getElem_allOnes, Bool.and_true]
      simp [this, BitVec.getLsbD_eq_getElem hi]
  rw [e, BitVec.toNat_shiftLeft, BitVec.toNat_ushiftRight, Nat.shiftRight_eq_div_pow, Nat.shiftLeft_eq]
  exact Nat.mod_eq_of_lt (Nat.lt_of_le_of_lt (Nat.div_mul_le_self _ _) w.isLt)

/-- The row that takes a write, with its address (R63). -/
theorem decodeWrite_cases (a : Addr) (d : Word) :
    (a = 0x00004#18 ∧ decodeWrite a d = .wr32Ctrl d) ∨
    (a = 0x00008#18 ∧ decodeWrite a d = .wr32Delim d) ∨
    (a = 0x0000C#18 ∧ decodeWrite a d = .wr32User d) ∨
    (a = 0x00010#18 ∧ decodeWrite a d = .wr32Cmd d) ∨
    (a = 0x0002C#18 ∧ decodeWrite a d = .wr32Resp d) ∨
    (a = 0x00038#18 ∧ decodeWrite a d = .wr32RbIdx d) ∨
    (∃ v, a = entAddr v ∧ decodeWrite a d = .wr32Ent v d) ∨
    (∃ i, a = epAddr i ∧ decodeWrite a d = .wr32Ep i d) ∨
    (∃ i, a = eoAddr i ∧ decodeWrite a d = .wr32Eo i d) ∨
    (writeRowTakes a = false ∧ decodeWrite a d = .wr32Ro a d) := by
  have eqOf : ∀ b : Addr, a.toNat = b.toNat → a = b := fun _ => BitVec.eq_of_toNat_eq
  by_cases h1 : a.toNat = 0x004
  · exact .inl ⟨eqOf _ h1, by simp [decodeWrite, h1]⟩
  by_cases h2 : a.toNat = 0x008
  · exact .inr (.inl ⟨eqOf _ h2, by simp [decodeWrite, h2]⟩)
  refine .inr (.inr ?_)
  by_cases h3 : a.toNat = 0x00C
  · exact .inl ⟨eqOf _ h3, by simp [decodeWrite, h3]⟩
  by_cases h4 : a.toNat = 0x010
  · exact .inr (.inl ⟨eqOf _ h4, by simp [decodeWrite, h4]⟩)
  refine .inr (.inr ?_)
  by_cases h5 : a.toNat = 0x02C
  · exact .inl ⟨eqOf _ h5, by simp [decodeWrite, h5]⟩
  by_cases h6 : a.toNat = 0x038
  · exact .inr (.inl ⟨eqOf _ h6, by simp [decodeWrite, h6]⟩)
  refine .inr (.inr ?_)
  by_cases ha : a.toNat % 4 = 0
  swap
  · refine .inr (.inr (.inr ⟨?_, by simp [decodeWrite, h1, h2, h3, h4, h5, h6, ha]⟩))
    simp [writeRowTakes, h1, h2, h3, h4, h5, h6, ha]
  by_cases h7 : 0x400 ≤ a.toNat ∧ a.toNat < 0x800
  · refine .inl ⟨BitVec.ofNat 8 ((a.toNat - 0x400) / 4), eqOf _ ?_, by
      simp [decodeWrite, h1, h2, h3, h4, h5, h6, ha, h7]⟩
    rw [entAddr_toNat, BitVec.toNat_ofNat]
    omega
  by_cases h8 : 0x10000 ≤ a.toNat ∧ a.toNat < 0x20000
  · refine .inr (.inl ⟨BitVec.ofNat 14 ((a.toNat - 0x10000) / 4), eqOf _ ?_, by
      simp only [decodeWrite, h1, h2, h3, h4, h5, h6, ha, h7, h8, if_false, if_true, ne_eq, not_true, and_self]⟩)
    rw [epAddr_toNat, BitVec.toNat_ofNat]
    omega
  by_cases h9 : 0x20000 ≤ a.toNat ∧ a.toNat < 0x30000
  · refine .inr (.inr (.inl ⟨BitVec.ofNat 14 ((a.toNat - 0x20000) / 4), eqOf _ ?_, by
      simp only [decodeWrite, h1, h2, h3, h4, h5, h6, ha, h7, h8, h9, if_false, if_true, ne_eq, not_true, and_self]⟩))
    rw [eoAddr_toNat, BitVec.toNat_ofNat]
    omega
  · refine .inr (.inr (.inr ⟨?_, by
      simp only [decodeWrite, h1, h2, h3, h4, h5, h6, ha, h7, h8, h9, if_false, ne_eq, not_true]⟩))
    simp only [writeRowTakes, Bool.or_eq_false_iff, Bool.and_eq_false_iff, beq_eq_false_iff_ne, decide_eq_false_iff_not,
      ne_eq]
    omega

end Sys2Proof
end

