-- ==== Sys2Proof/Laws/Memory.lean ====
section
/-! SUPPORT. The laws of the encoder memories: reading after writing, and that every operation keeps the canonical form
and the index bound. -/

namespace Sys2Proof.Machine

@[simp] theorem Memory.read_nil (i : Nat) : Memory.read [] i = none := rfl

/-- Reading after writing one cell. -/
theorem Memory.read_write (m : Memory) (i j : Nat) (b : Byte) :
    (m.write i b).read j = if j = i then some b else m.read j := by
  induction m with
  | nil =>
    by_cases h : j = i
    · subst h; simp [Memory.write, Memory.read]
    · simp [Memory.write, Memory.read, h, Ne.symm h]
  | cons c m ih =>
    obtain ⟨k, x⟩ := c
    simp only [Memory.write]
    split
    · by_cases h : j = i
      · subst h; simp [Memory.read]
      · simp [Memory.read, h, Ne.symm h]
    · split
      · next h₁ h₂ =>
        subst h₂
        by_cases h : j = i
        · subst h; simp [Memory.read]
        · simp [Memory.read, h, Ne.symm h]
      · next h₁ h₂ =>
        by_cases hk : k = j
        · subst hk
          have : k ≠ i := fun e => h₂ e.symm
          simp [Memory.read, this]
        · simp [Memory.read, hk, ih]

theorem Memory.read_write_same (m : Memory) (i : Nat) (b : Byte) : (m.write i b).read i = some b := by
  simp [Memory.read_write]

theorem Memory.read_write_ne (m : Memory) {i j : Nat} (b : Byte) (h : j ≠ i) :
    (m.write i b).read j = m.read j := by
  simp [Memory.read_write, h]

/-- The cells of a written memory: the new one, or one that was there. -/
theorem Memory.mem_write {m : Memory} {i : Nat} {b : Byte} {c : Host.Cell} (h : c ∈ m.write i b) :
    c = (i, b) ∨ c ∈ m := by
  induction m with
  | nil => simpa [Memory.write] using h
  | cons d m ih =>
    obtain ⟨k, x⟩ := d
    simp only [Memory.write] at h
    split at h
    · simpa using h
    · split at h
      · rcases List.mem_cons.mp h with h | h
        · exact .inl h
        · exact .inr (List.mem_cons_of_mem _ h)
      · rcases List.mem_cons.mp h with h | h
        · exact .inr (by simp [h])
        · rcases ih h with h | h
          · exact .inl h
          · exact .inr (List.mem_cons_of_mem _ h)

/-- A write keeps the canonical form. -/
theorem Memory.write_wf {m : Memory} (h : m.wf) (i : Nat) (b : Byte) : (m.write i b).wf := by
  induction m with
  | nil => simp [Memory.write, Memory.wf]
  | cons d m ih =>
    obtain ⟨k, x⟩ := d
    obtain ⟨hk, hm⟩ := List.pairwise_cons.mp h
    simp only [Memory.write]
    split
    · next hlt =>
      refine List.pairwise_cons.mpr ⟨?_, h⟩
      intro c hc
      rcases List.mem_cons.mp hc with rfl | hc
      · exact hlt
      · exact Nat.lt_trans hlt (hk c hc)
    · split
      · next h₂ =>
        subst h₂
        exact List.pairwise_cons.mpr ⟨hk, hm⟩
      · next h₁ h₂ =>
        refine List.pairwise_cons.mpr ⟨?_, ih hm⟩
        intro c hc
        rcases Memory.mem_write hc with rfl | hc
        · show k < i; omega
        · exact hk c hc

/-- A write below the bound keeps the index bound. -/
theorem Memory.write_bound {m : Memory} {n : Nat} (h : ∀ c ∈ m, c.1 < n) {i : Nat} (hi : i < n) (b : Byte) :
    ∀ c ∈ m.write i b, c.1 < n := by
  intro c hc
  rcases Memory.mem_write hc with rfl | hc
  · exact hi
  · exact h c hc

/-- Reading after writing consecutive cells (R201, R202). -/
theorem Memory.read_writeFrom (m : Memory) (i : Nat) (bs : List Byte) (j : Nat) :
    (m.writeFrom i bs).read j = if i ≤ j ∧ j < i + bs.length then bs[j - i]? else m.read j := by
  induction bs generalizing m i with
  | nil =>
    simp only [Memory.writeFrom, List.length_nil]
    rw [if_neg (by omega)]
  | cons b bs ih =>
    simp only [Memory.writeFrom, ih, List.length_cons]
    by_cases hji : j = i
    · subst hji
      simp [Memory.read_write]
    · by_cases h : i + 1 ≤ j ∧ j < i + 1 + bs.length
      · have h' : i ≤ j ∧ j < i + (bs.length + 1) := by omega
        obtain ⟨d, hd⟩ : ∃ d, j - i = d + 1 := ⟨j - i - 1, by omega⟩
        have : j - (i + 1) = d := by omega
        simp [h, h', hd, this]
      · have h' : ¬(i ≤ j ∧ j < i + (bs.length + 1)) := by omega
        rw [if_neg h, if_neg h', Memory.read_write_ne _ _ hji]

theorem Memory.writeFrom_wf {m : Memory} (h : m.wf) (i : Nat) (bs : List Byte) : (m.writeFrom i bs).wf := by
  induction bs generalizing m i with
  | nil => exact h
  | cons b bs ih => exact ih (Memory.write_wf h i b) (i + 1)

theorem Memory.writeFrom_bound {m : Memory} {n : Nat} (h : ∀ c ∈ m, c.1 < n) (i : Nat) (bs : List Byte)
    (hn : i + bs.length ≤ n) : ∀ c ∈ m.writeFrom i bs, c.1 < n := by
  induction bs generalizing m i with
  | nil => exact h
  | cons b bs ih =>
    simp only [List.length_cons] at hn
    exact ih (Memory.write_bound h (by omega) b) (i + 1) (by omega)

/-- What a read of consecutive cells answers (R205): the bytes of all of them. -/
theorem Memory.readFrom_eq_some {m : Memory} {i n : Nat} {p : List Byte} :
    m.readFrom i n = some p ↔ p.length = n ∧ ∀ j < n, m.read (i + j) = p[j]? := by
  induction n generalizing i p with
  | zero =>
    simp only [Memory.readFrom, Option.some.injEq, Nat.not_lt_zero, false_implies, implies_true, and_true]
    exact ⟨fun h => by simp [← h], fun h => (List.length_eq_zero_iff.mp h).symm⟩
  | succ n ih =>
    simp only [Memory.readFrom]
    constructor
    · intro h
      split at h
      · next b q hb hq =>
        injection h with h
        subst h
        obtain ⟨hl, hr⟩ := ih.mp hq
        refine ⟨by simp [hl], ?_⟩
        intro j hj
        cases j with
        | zero => simpa using hb
        | succ j =>
          have := hr j (by omega)
          simpa [Nat.add_assoc, Nat.add_comm 1 j] using this
      · cases h
    · rintro ⟨hl, hr⟩
      cases p with
      | nil => simp at hl
      | cons b q =>
        have hb : m.read i = some b := by simpa using hr 0 (by omega)
        have hq : m.readFrom (i + 1) n = some q := by
          refine ih.mpr ⟨by simpa using hl, ?_⟩
          intro j hj
          have := hr (j + 1) (by omega)
          simpa [Nat.add_assoc, Nat.add_comm 1 j] using this
        simp [hb, hq]

/-- It answers nothing exactly where one of the cells is unwritten (R205). -/
theorem Memory.readFrom_eq_none {m : Memory} {i n : Nat} :
    m.readFrom i n = none ↔ ∃ j < n, m.read (i + j) = none := by
  induction n generalizing i with
  | zero => simp [Memory.readFrom]
  | succ n ih =>
    simp only [Memory.readFrom]
    constructor
    · intro h
      cases hb : m.read i with
      | none => exact ⟨0, by omega, by simpa using hb⟩
      | some b =>
        cases hq : m.readFrom (i + 1) n with
        | none =>
          obtain ⟨j, hj, hn⟩ := ih.mp hq
          exact ⟨j + 1, by omega, by simpa [Nat.add_assoc, Nat.add_comm 1 j] using hn⟩
        | some q => simp [hb, hq] at h
    · rintro ⟨j, hj, hn⟩
      cases j with
      | zero => simp [show m.read i = none by simpa using hn]
      | succ j =>
        have : m.readFrom (i + 1) n = none :=
          ih.mpr ⟨j, by omega, by simpa [Nat.add_assoc, Nat.add_comm 1 j] using hn⟩
        simp [this]

end Sys2Proof.Machine
end

