-- ==== Sys2Proof/Laws/State.lean ====
section
/-! SUPPORT. One lemma per field per named update of State, true by rfl, and the equations that bring the other named
updates back to these. -/

namespace Sys2Proof.Machine

@[simp] theorem failWith_eq (c : ResultCode) (s : State) : failWith c s = finish c .none 0#24 s := rfl
@[simp] theorem replyOk_eq (s : State) : replyOk s = respond .ok s := rfl
@[simp] theorem reply_eq (w : Word) (s : State) : reply w s = respond (.data w) s := rfl
@[simp] theorem busError_eq (s : State) : busError s = respond .buserr s := rfl
@[simp] theorem postPacket_eq (s : State) :
    postPacket s = record (.packet s.user s.rb) { s with pend := .pkt } := rfl
@[simp] theorem postRestart_eq (k : RestartKind) (s : State) :
    postRestart k s = record (.restart s.rstByte) { s with pend := .rst k } := rfl
@[simp] theorem postAlloc_eq (n : Nat) (x : Byte) (k : AppendKind) (s : State) :
    postAlloc n x k s =
      record (.allocRequest n) { s with allocSize := BitVec.ofNat 32 n, pend := .alloc x k } := rfl
@[simp] theorem respond_respond (r r' : BusResponse) (s : State) : respond r (respond r' s) = respond r s := rfl

@[simp] theorem finish_cfgd (c : ResultCode) (e : Evt) (v : BitVec 24) (s : State) : (finish c e v s).cfgd = s.cfgd := rfl
@[simp] theorem finish_fsm (c : ResultCode) (e : Evt) (v : BitVec 24) (s : State) : (finish c e v s).fsm = s.fsm := rfl
@[simp] theorem finish_length (c : ResultCode) (e : Evt) (v : BitVec 24) (s : State) : (finish c e v s).length = s.length := rfl
@[simp] theorem finish_capacity (c : ResultCode) (e : Evt) (v : BitVec 24) (s : State) : (finish c e v s).capacity = s.capacity := rfl
@[simp] theorem finish_rb (c : ResultCode) (e : Evt) (v : BitVec 24) (s : State) : (finish c e v s).rb = s.rb := rfl
@[simp] theorem finish_halt (c : ResultCode) (e : Evt) (v : BitVec 24) (s : State) : (finish c e v s).halt = s.halt := rfl
@[simp] theorem finish_result (c : ResultCode) (e : Evt) (v : BitVec 24) (s : State) : (finish c e v s).result = { code := c, evt := e, val := v } := rfl
@[simp] theorem finish_pend (c : ResultCode) (e : Evt) (v : BitVec 24) (s : State) : (finish c e v s).pend = s.pend := rfl
@[simp] theorem finish_rstByte (c : ResultCode) (e : Evt) (v : BitVec 24) (s : State) : (finish c e v s).rstByte = s.rstByte := rfl
@[simp] theorem finish_allocSize (c : ResultCode) (e : Evt) (v : BitVec 24) (s : State) : (finish c e v s).allocSize = s.allocSize := rfl
@[simp] theorem finish_rbIdx (c : ResultCode) (e : Evt) (v : BitVec 24) (s : State) : (finish c e v s).rbIdx = s.rbIdx := rfl
@[simp] theorem finish_delim (c : ResultCode) (e : Evt) (v : BitVec 24) (s : State) : (finish c e v s).delim = s.delim := rfl
@[simp] theorem finish_ctrl (c : ResultCode) (e : Evt) (v : BitVec 24) (s : State) : (finish c e v s).ctrl = s.ctrl := rfl
@[simp] theorem finish_user (c : ResultCode) (e : Evt) (v : BitVec 24) (s : State) : (finish c e v s).user = s.user := rfl
@[simp] theorem finish_act (c : ResultCode) (e : Evt) (v : BitVec 24) (s : State) : (finish c e v s).act = s.act := rfl
@[simp] theorem finish_em (c : ResultCode) (e : Evt) (v : BitVec 24) (s : State) : (finish c e v s).em = s.em := rfl
@[simp] theorem finish_dm (c : ResultCode) (e : Evt) (v : BitVec 24) (s : State) : (finish c e v s).dm = s.dm := rfl
@[simp] theorem finish_ep (c : ResultCode) (e : Evt) (v : BitVec 24) (s : State) : (finish c e v s).ep = s.ep := rfl
@[simp] theorem finish_eo (c : ResultCode) (e : Evt) (v : BitVec 24) (s : State) : (finish c e v s).eo = s.eo := rfl
@[simp] theorem finish_history (c : ResultCode) (e : Evt) (v : BitVec 24) (s : State) : (finish c e v s).history = s.history := rfl
@[simp] theorem finish_params (c : ResultCode) (e : Evt) (v : BitVec 24) (s : State) : (finish c e v s).params = s.params := rfl
@[simp] theorem finish_script (c : ResultCode) (e : Evt) (v : BitVec 24) (s : State) : (finish c e v s).script = s.script := rfl
@[simp] theorem finish_bus (c : ResultCode) (e : Evt) (v : BitVec 24) (s : State) : (finish c e v s).bus = s.bus := rfl
@[simp] theorem finish_draws (c : ResultCode) (e : Evt) (v : BitVec 24) (s : State) : (finish c e v s).draws = s.draws := rfl

@[simp] theorem record_cfgd (e : HistoryEntry) (s : State) : (record e s).cfgd = s.cfgd := rfl
@[simp] theorem record_fsm (e : HistoryEntry) (s : State) : (record e s).fsm = s.fsm := rfl
@[simp] theorem record_length (e : HistoryEntry) (s : State) : (record e s).length = s.length := rfl
@[simp] theorem record_capacity (e : HistoryEntry) (s : State) : (record e s).capacity = s.capacity := rfl
@[simp] theorem record_rb (e : HistoryEntry) (s : State) : (record e s).rb = s.rb := rfl
@[simp] theorem record_halt (e : HistoryEntry) (s : State) : (record e s).halt = s.halt := rfl
@[simp] theorem record_result (e : HistoryEntry) (s : State) : (record e s).result = s.result := rfl
@[simp] theorem record_pend (e : HistoryEntry) (s : State) : (record e s).pend = s.pend := rfl
@[simp] theorem record_rstByte (e : HistoryEntry) (s : State) : (record e s).rstByte = s.rstByte := rfl
@[simp] theorem record_allocSize (e : HistoryEntry) (s : State) : (record e s).allocSize = s.allocSize := rfl
@[simp] theorem record_rbIdx (e : HistoryEntry) (s : State) : (record e s).rbIdx = s.rbIdx := rfl
@[simp] theorem record_delim (e : HistoryEntry) (s : State) : (record e s).delim = s.delim := rfl
@[simp] theorem record_ctrl (e : HistoryEntry) (s : State) : (record e s).ctrl = s.ctrl := rfl
@[simp] theorem record_user (e : HistoryEntry) (s : State) : (record e s).user = s.user := rfl
@[simp] theorem record_act (e : HistoryEntry) (s : State) : (record e s).act = s.act := rfl
@[simp] theorem record_em (e : HistoryEntry) (s : State) : (record e s).em = s.em := rfl
@[simp] theorem record_dm (e : HistoryEntry) (s : State) : (record e s).dm = s.dm := rfl
@[simp] theorem record_ep (e : HistoryEntry) (s : State) : (record e s).ep = s.ep := rfl
@[simp] theorem record_eo (e : HistoryEntry) (s : State) : (record e s).eo = s.eo := rfl
@[simp] theorem record_history (e : HistoryEntry) (s : State) : (record e s).history = s.history ++ [e] := rfl
@[simp] theorem record_params (e : HistoryEntry) (s : State) : (record e s).params = s.params := rfl
@[simp] theorem record_script (e : HistoryEntry) (s : State) : (record e s).script = s.script := rfl
@[simp] theorem record_bus (e : HistoryEntry) (s : State) : (record e s).bus = s.bus := rfl
@[simp] theorem record_draws (e : HistoryEntry) (s : State) : (record e s).draws = s.draws := rfl

@[simp] theorem respond_cfgd (r : BusResponse) (s : State) : (respond r s).cfgd = s.cfgd := rfl
@[simp] theorem respond_fsm (r : BusResponse) (s : State) : (respond r s).fsm = s.fsm := rfl
@[simp] theorem respond_length (r : BusResponse) (s : State) : (respond r s).length = s.length := rfl
@[simp] theorem respond_capacity (r : BusResponse) (s : State) : (respond r s).capacity = s.capacity := rfl
@[simp] theorem respond_rb (r : BusResponse) (s : State) : (respond r s).rb = s.rb := rfl
@[simp] theorem respond_halt (r : BusResponse) (s : State) : (respond r s).halt = s.halt := rfl
@[simp] theorem respond_result (r : BusResponse) (s : State) : (respond r s).result = s.result := rfl
@[simp] theorem respond_pend (r : BusResponse) (s : State) : (respond r s).pend = s.pend := rfl
@[simp] theorem respond_rstByte (r : BusResponse) (s : State) : (respond r s).rstByte = s.rstByte := rfl
@[simp] theorem respond_allocSize (r : BusResponse) (s : State) : (respond r s).allocSize = s.allocSize := rfl
@[simp] theorem respond_rbIdx (r : BusResponse) (s : State) : (respond r s).rbIdx = s.rbIdx := rfl
@[simp] theorem respond_delim (r : BusResponse) (s : State) : (respond r s).delim = s.delim := rfl
@[simp] theorem respond_ctrl (r : BusResponse) (s : State) : (respond r s).ctrl = s.ctrl := rfl
@[simp] theorem respond_user (r : BusResponse) (s : State) : (respond r s).user = s.user := rfl
@[simp] theorem respond_act (r : BusResponse) (s : State) : (respond r s).act = s.act := rfl
@[simp] theorem respond_em (r : BusResponse) (s : State) : (respond r s).em = s.em := rfl
@[simp] theorem respond_dm (r : BusResponse) (s : State) : (respond r s).dm = s.dm := rfl
@[simp] theorem respond_ep (r : BusResponse) (s : State) : (respond r s).ep = s.ep := rfl
@[simp] theorem respond_eo (r : BusResponse) (s : State) : (respond r s).eo = s.eo := rfl
@[simp] theorem respond_history (r : BusResponse) (s : State) : (respond r s).history = s.history := rfl
@[simp] theorem respond_params (r : BusResponse) (s : State) : (respond r s).params = s.params := rfl
@[simp] theorem respond_script (r : BusResponse) (s : State) : (respond r s).script = s.script := rfl
@[simp] theorem respond_bus (r : BusResponse) (s : State) : (respond r s).bus = r := rfl
@[simp] theorem respond_draws (r : BusResponse) (s : State) : (respond r s).draws = s.draws := rfl

@[simp] theorem storeByte_cfgd (x : Byte) (s : State) : (storeByte x s).cfgd = s.cfgd := rfl
@[simp] theorem storeByte_fsm (x : Byte) (s : State) : (storeByte x s).fsm = .inFrame := rfl
@[simp] theorem storeByte_length (x : Byte) (s : State) : (storeByte x s).length = s.length + 1 := rfl
@[simp] theorem storeByte_capacity (x : Byte) (s : State) : (storeByte x s).capacity = s.capacity := rfl
@[simp] theorem storeByte_rb (x : Byte) (s : State) : (storeByte x s).rb = s.rb ++ [x] := rfl
@[simp] theorem storeByte_halt (x : Byte) (s : State) : (storeByte x s).halt = s.halt := rfl
@[simp] theorem storeByte_result (x : Byte) (s : State) : (storeByte x s).result = s.result := rfl
@[simp] theorem storeByte_pend (x : Byte) (s : State) : (storeByte x s).pend = s.pend := rfl
@[simp] theorem storeByte_rstByte (x : Byte) (s : State) : (storeByte x s).rstByte = s.rstByte := rfl
@[simp] theorem storeByte_allocSize (x : Byte) (s : State) : (storeByte x s).allocSize = s.allocSize := rfl
@[simp] theorem storeByte_rbIdx (x : Byte) (s : State) : (storeByte x s).rbIdx = s.rbIdx := rfl
@[simp] theorem storeByte_delim (x : Byte) (s : State) : (storeByte x s).delim = s.delim := rfl
@[simp] theorem storeByte_ctrl (x : Byte) (s : State) : (storeByte x s).ctrl = s.ctrl := rfl
@[simp] theorem storeByte_user (x : Byte) (s : State) : (storeByte x s).user = s.user := rfl
@[simp] theorem storeByte_act (x : Byte) (s : State) : (storeByte x s).act = s.act := rfl
@[simp] theorem storeByte_em (x : Byte) (s : State) : (storeByte x s).em = s.em := rfl
@[simp] theorem storeByte_dm (x : Byte) (s : State) : (storeByte x s).dm = s.dm := rfl
@[simp] theorem storeByte_ep (x : Byte) (s : State) : (storeByte x s).ep = s.ep := rfl
@[simp] theorem storeByte_eo (x : Byte) (s : State) : (storeByte x s).eo = s.eo := rfl
@[simp] theorem storeByte_history (x : Byte) (s : State) : (storeByte x s).history = s.history := rfl
@[simp] theorem storeByte_params (x : Byte) (s : State) : (storeByte x s).params = s.params := rfl
@[simp] theorem storeByte_script (x : Byte) (s : State) : (storeByte x s).script = s.script := rfl
@[simp] theorem storeByte_bus (x : Byte) (s : State) : (storeByte x s).bus = s.bus := rfl
@[simp] theorem storeByte_draws (x : Byte) (s : State) : (storeByte x s).draws = s.draws := rfl

@[simp] theorem hostReset_cfgd (s : State) : (hostReset s).cfgd = false := rfl
@[simp] theorem hostReset_fsm (s : State) : (hostReset s).fsm = .idle := rfl
@[simp] theorem hostReset_length (s : State) : (hostReset s).length = 0 := rfl
@[simp] theorem hostReset_capacity (s : State) : (hostReset s).capacity = 0 := rfl
@[simp] theorem hostReset_rb (s : State) : (hostReset s).rb = [] := rfl
@[simp] theorem hostReset_halt (s : State) : (hostReset s).halt = false := rfl
@[simp] theorem hostReset_result (s : State) : (hostReset s).result = { code := .ok, evt := .none, val := 0#24 } := rfl
@[simp] theorem hostReset_pend (s : State) : (hostReset s).pend = .none := rfl
@[simp] theorem hostReset_rstByte (s : State) : (hostReset s).rstByte = 0x00#8 := rfl
@[simp] theorem hostReset_allocSize (s : State) : (hostReset s).allocSize = 0#32 := rfl
@[simp] theorem hostReset_rbIdx (s : State) : (hostReset s).rbIdx = 0#32 := rfl
@[simp] theorem hostReset_delim (s : State) : (hostReset s).delim = s.params.cfgReset.delim := rfl
@[simp] theorem hostReset_ctrl (s : State) : (hostReset s).ctrl = { pktEn := false, rstEn := false, allocEn := false } := rfl
@[simp] theorem hostReset_user (s : State) : (hostReset s).user = 0#32 := rfl
@[simp] theorem hostReset_act (s : State) : (hostReset s).act = s.params.cfgReset.act := rfl
@[simp] theorem hostReset_em (s : State) : (hostReset s).em = s.params.cfgReset.em := rfl
@[simp] theorem hostReset_dm (s : State) : (hostReset s).dm = Vector.replicate 256 0x00#8 := rfl
@[simp] theorem hostReset_ep (s : State) : (hostReset s).ep = [] := rfl
@[simp] theorem hostReset_eo (s : State) : (hostReset s).eo = [] := rfl
@[simp] theorem hostReset_history (s : State) : (hostReset s).history = s.history := rfl
@[simp] theorem hostReset_params (s : State) : (hostReset s).params = s.params := rfl
@[simp] theorem hostReset_script (s : State) : (hostReset s).script = s.script := rfl
@[simp] theorem hostReset_bus (s : State) : (hostReset s).bus = .none := rfl
@[simp] theorem hostReset_draws (s : State) : (hostReset s).draws = s.draws := rfl

end Sys2Proof.Machine
end

