-- ==== Sys2Proof/Laws/Table.lean ====
section
/-! SUPPORT. The laws of the byte tables: reading after writing, the list of all bytes, and what the derivation of the
decode map leaves (40_config.md R122, R123). -/

namespace Sys2Proof.Machine

@[simp] theorem tableGet_tableSet_same {α : Type} (t : Table α) (b : Byte) (x : α) :
    tableGet (tableSet t b x) b = x := by
  simp [tableGet, tableSet]

theorem tableGet_tableSet_ne {α : Type} (t : Table α) {b c : Byte} (x : α) (h : c ≠ b) :
    tableGet (tableSet t b x) c = tableGet t c := by
  have : b.toNat ≠ c.toNat := fun e => h (BitVec.eq_of_toNat_eq e.symm)
  simp [tableGet, tableSet, Vector.getElem_set_ne, this]

theorem tableGet_tableSet {α : Type} (t : Table α) (b c : Byte) (x : α) :
    tableGet (tableSet t b x) c = if c = b then x else tableGet t c := by
  by_cases h : c = b
  · subst h; simp
  · simp [h, tableGet_tableSet_ne]

@[simp] theorem tableGet_replicate {α : Type} (x : α) (b : Byte) : tableGet (Vector.replicate 256 x) b = x := by
  simp [tableGet]

/-- Two tables with the same entries are the same table. -/
theorem table_ext {α : Type} {t u : Table α} (h : ∀ b, tableGet t b = tableGet u b) : t = u := by
  apply Vector.ext
  intro i hi
  have := h (BitVec.ofNat 8 i)
  simpa [tableGet, Nat.mod_eq_of_lt hi] using this

@[simp] theorem mem_allBytes (b : Byte) : b ∈ allBytes := by
  simp only [allBytes, List.mem_map, List.mem_range]
  exact ⟨b.toNat, b.isLt, by simp⟩

/-- The bytes are listed in strictly ascending order. -/
theorem allBytes_ascending : allBytes.Pairwise fun x y => x.toNat < y.toNat := by
  simp only [allBytes, List.pairwise_map]
  refine List.Pairwise.imp_of_mem ?_ List.pairwise_lt_range
  intro a b ha hb hab
  simp only [List.mem_range] at ha hb
  simpa [Nat.mod_eq_of_lt ha, Nat.mod_eq_of_lt hb] using hab

/-- One pass over a strictly ascending list of bytes: entry c holds the largest listed i with EM[i] = c, and keeps its
old value where there is none. -/
theorem foldl_derive (em : Table Byte) (c : Byte) (l : List Byte) (hl : l.Pairwise fun x y => x.toNat < y.toNat)
    (dm : Table Byte) :
    let out := tableGet (l.foldl (fun dm i => tableSet dm (tableGet em i) i) dm) c
    (out ∈ l ∧ tableGet em out = c ∧ ∀ j ∈ l, tableGet em j = c → j.toNat ≤ out.toNat) ∨
      ((∀ j ∈ l, tableGet em j ≠ c) ∧ out = tableGet dm c) := by
  induction l generalizing dm with
  | nil => right; simp
  | cons i l ih =>
    obtain ⟨hi, hl⟩ := List.pairwise_cons.mp hl
    simp only [List.foldl_cons]
    rcases ih hl (tableSet dm (tableGet em i) i) with ⟨hm, he, hmax⟩ | ⟨hno, hout⟩
    · left
      refine ⟨List.mem_cons_of_mem _ hm, he, ?_⟩
      intro j hj hjc
      rcases List.mem_cons.mp hj with rfl | hj
      · exact Nat.le_of_lt (hi _ hm)
      · exact hmax j hj hjc
    · by_cases hc : tableGet em i = c
      · left
        rw [hout, hc, tableGet_tableSet_same]
        refine ⟨by simp, hc, ?_⟩
        intro j hj hjc
        rcases List.mem_cons.mp hj with rfl | hj
        · exact Nat.le_refl _
        · exact absurd hjc (hno j hj)
      · right
        rw [hout, tableGet_tableSet_ne _ _ (fun e => hc e.symm)]
        refine ⟨?_, rfl⟩
        intro j hj
        rcases List.mem_cons.mp hj with rfl | hj
        · exact hc
        · exact hno j hj

/-- What INIT derives (R122, R123(a)): DM[c] is the largest i with EM[i] = c, or 0x00 where there is none. -/
theorem deriveDm_spec (em : Table Byte) (c : Byte) :
    (tableGet em (tableGet (deriveDm em) c) = c ∧
        ∀ j, tableGet em j = c → j.toNat ≤ (tableGet (deriveDm em) c).toNat) ∨
      ((∀ j, tableGet em j ≠ c) ∧ tableGet (deriveDm em) c = 0x00#8) := by
  have e : deriveDm em = allBytes.foldl (fun dm i => tableSet dm (tableGet em i) i) (Vector.replicate 256 0x00#8) := by
    unfold deriveDm
    with_reducible rfl
  have h := foldl_derive em c allBytes allBytes_ascending (Vector.replicate 256 0x00#8)
  rw [← e, tableGet_replicate] at h
  rcases h with h | h
  · left; exact ⟨h.2.1, fun j hj => h.2.2 j (mem_allBytes j) hj⟩
  · right; exact ⟨fun j => h.1 j (mem_allBytes j), h.2⟩

/-- A table with the property of R123(a) is the derived one. -/
theorem deriveDm_unique {em dm : Table Byte}
    (h : ∀ c, (tableGet em (tableGet dm c) = c ∧ ∀ j, tableGet em j = c → j.toNat ≤ (tableGet dm c).toNat) ∨
      ((∀ j, tableGet em j ≠ c) ∧ tableGet dm c = 0x00#8)) :
    deriveDm em = dm := by
  apply table_ext
  intro c
  rcases deriveDm_spec em c with ⟨h₁, h₂⟩ | ⟨h₁, h₂⟩ <;> rcases h c with ⟨k₁, k₂⟩ | ⟨k₁, k₂⟩
  · exact BitVec.eq_of_toNat_eq (Nat.le_antisymm (k₂ _ h₁) (h₂ _ k₁))
  · exact absurd h₁ (k₁ _)
  · exact absurd k₁ (h₁ _)
  · rw [h₂, k₂]

/-- injective_on_active as R128 words it. -/
theorem injectiveOnActive_iff (act : Table Bool) (em : Table Byte) :
    injectiveOnActive act em = true ↔
      ∀ v w, v ≠ w → tableGet act v = true → tableGet act w = true → tableGet em v ≠ tableGet em w := by
  have nd : (allBytes.filter fun v => tableGet act v).Nodup :=
    (allBytes_ascending.imp (fun h e => by subst e; omega) : allBytes.Nodup).filter _
  rw [injectiveOnActive, decide_eq_true_eq, activeCodes, List.nodup_map_iff_inj_on nd]
  simp only [List.mem_filter, mem_allBytes, true_and]
  constructor
  · intro h v w hvw hv hw he
    exact hvw (h v hv w hw he)
  · intro h v hv w hw he
    by_contra hvw
    exact h v w hvw hv hw he

end Sys2Proof.Machine
end

