-- ==== Sys2Proof/Laws/Ops.lean ====
section
/-! SUPPORT. For each shared operation, one lemma that says once everything it can do; later proofs cite these instead of
unfolding the operation. -/

namespace Sys2Proof.Machine

/-- A write of a locked register is refused or stored (R226). -/
theorem lockedWrite_cases (f : State → State) (s : State) :
    (s.cfgd = true ∧ lockedWrite f s = respond .buserr s) ∨
      (s.cfgd = false ∧ lockedWrite f s = respond .ok (f s)) := by
  cases h : s.cfgd <;> simp [lockedWrite, h]

/-- A read of a cell answers its byte, or draws a free byte where the cell is unwritten (R230, U2). -/
theorem readCell_cases (m : Memory) (i : Nat) (s : State) :
    (∃ b, m.read i = some b ∧ readCell m i s = respond (.data (byteWord b)) s) ∨
      (m.read i = none ∧
        readCell m i s = respond (.data (byteWord (Config.freeByte s.draws))) { s with draws := s.draws + 1 }) := by
  cases h : m.read i <;> simp [readCell, h]

/-- A read of RB_DATA answers a byte of the buffer or BUSERR (R229). -/
theorem readRbData_cases (s : State) :
    (∃ b, s.rbIdx.toNat < s.length ∧ s.rb[s.rbIdx.toNat]? = some b ∧
        readRbData s = respond (.data (byteWord b)) s) ∨
      ((s.length ≤ s.rbIdx.toNat ∨ s.rb[s.rbIdx.toNat]? = none) ∧ readRbData s = respond .buserr s) := by
  unfold readRbData
  split
  · next h =>
    split
    · next b hb => exact .inl ⟨b, h, hb, rfl⟩
    · next hb => exact .inr ⟨.inr hb, rfl⟩
  · next h => exact .inr ⟨.inl (by omega), rfl⟩

/-- A read of a mapped place changes the response and, for an unwritten cell, the draw counter; nothing else (R66). -/
theorem readTarget_frame (t : Target) (s : State) :
    ∃ r n, readTarget t s = { s with bus := r, draws := n } := by
  cases t <;> try exact ⟨_, _, rfl⟩
  · rcases readRbData_cases s with ⟨b, -, -, h⟩ | ⟨-, h⟩ <;> exact ⟨_, _, by rw [readTarget, h]; rfl⟩
  · next i => rcases readCell_cases s.ep i s with ⟨b, -, h⟩ | ⟨-, h⟩ <;> exact ⟨_, _, by rw [readTarget, h]; rfl⟩
  · next i => rcases readCell_cases s.eo i s with ⟨b, -, h⟩ | ⟨-, h⟩ <;> exact ⟨_, _, by rw [readTarget, h]; rfl⟩

/-- A growth fails at once beyond P_RB_MAX, or posts a request (R164). -/
theorem growBuffer_cases (x : Byte) (k : AppendKind) (s : State) :
    (s.params.rbMax < nextCapacity s.capacity ∧
        growBuffer x k s = finish .errResource .none 0#24 { s with halt := true }) ∨
      (nextCapacity s.capacity ≤ s.params.rbMax ∧
        growBuffer x k s =
          record (.allocRequest (nextCapacity s.capacity))
            { s with allocSize := BitVec.ofNat 32 (nextCapacity s.capacity), pend := .alloc x k }) := by
  unfold growBuffer
  split
  · next h => exact .inl ⟨h, rfl⟩
  · next h => exact .inr ⟨by omega, rfl⟩

/-- An append stores the byte or takes the growth path (R163, R164). -/
theorem appendByte_cases (x : Byte) (k : AppendKind) (s : State) :
    (s.length < s.capacity ∧ appendByte x k s = finish .ok k.evt 0#24 (storeByte x s)) ∨
      (s.capacity ≤ s.length ∧ appendByte x k s = growBuffer x k s) := by
  unfold appendByte
  split
  · next h => exact .inl ⟨h, rfl⟩
  · next h => exact .inr ⟨by omega, rfl⟩

/-- A restart is posted or, without a restart sink, dropped (R165). -/
theorem restartFrame_cases (b : Byte) (k : RestartKind) (s : State) :
    (s.ctrl.rstEn = true ∧
        restartFrame b k s =
          record (.restart b)
            { s with rstByte := b, length := 0, rb := [], fsm := .idle, pend := .rst k }) ∨
      (s.ctrl.rstEn = false ∧
        restartFrame b k s =
          finish .ok k.evt 0#24 { s with rstByte := b, length := 0, rb := [], fsm := .idle }) := by
  cases h : s.ctrl.rstEn
  · exact .inr ⟨rfl, by simp [restartFrame, h]⟩
  · exact .inl ⟨rfl, by simp [restartFrame, h]⟩

/-- The rows a DECB can take (R152). -/
theorem decodeByte_cases (b : Byte) (s : State) :
    (s.cfgd = false ∧ decodeByte b s = finish .errState .none 0#24 s) ∨
    (s.cfgd = true ∧ s.halt = true ∧ decodeByte b s = finish .errHalted .none 0#24 s) ∨
    (s.cfgd = true ∧ s.halt = false ∧ s.fsm = .idle ∧ b = s.delim.startByte ∧
      decodeByte b s = finish .ok .start 0#24 { s with length := 0, rb := [], fsm := .inFrame }) ∨
    (s.cfgd = true ∧ s.halt = false ∧ s.fsm = .idle ∧ b ≠ s.delim.startByte ∧
      decodeByte b s = finish .ok .ignore 0#24 s) ∨
    (s.cfgd = true ∧ s.halt = false ∧ s.fsm = .inFrame ∧ b = s.delim.endByte ∧
      decodeByte b s = record (.packet s.user s.rb) { s with fsm := .idle, pend := .pkt }) ∨
    (s.cfgd = true ∧ s.halt = false ∧ s.fsm = .inFrame ∧ b ≠ s.delim.endByte ∧ b = s.delim.startByte ∧
      decodeByte b s = restartFrame b .dup s) ∨
    (s.cfgd = true ∧ s.halt = false ∧ s.fsm = .inFrame ∧ b ≠ s.delim.endByte ∧ b ≠ s.delim.startByte ∧
      b = s.delim.escByte ∧ decodeByte b s = finish .ok .escape 0#24 { s with fsm := .escaping }) ∨
    (s.cfgd = true ∧ s.halt = false ∧ s.fsm = .inFrame ∧ b ≠ s.delim.endByte ∧ b ≠ s.delim.startByte ∧
      b ≠ s.delim.escByte ∧ decodeByte b s = appendByte b .data s) ∨
    (s.cfgd = true ∧ s.halt = false ∧ s.fsm = .escaping ∧ tableGet s.act (tableGet s.dm b) = true ∧
      decodeByte b s = appendByte (tableGet s.dm b) .unesc s) ∨
    (s.cfgd = true ∧ s.halt = false ∧ s.fsm = .escaping ∧ tableGet s.act (tableGet s.dm b) = false ∧
      decodeByte b s = restartFrame b .badEsc s) := by
  rcases Bool.eq_false_or_eq_true s.cfgd with hc | hc
  swap
  · exact .inl ⟨hc, by simp [decodeByte, hc]⟩
  rcases Bool.eq_false_or_eq_true s.halt with hh | hh
  · exact .inr (.inl ⟨hc, hh, by simp [decodeByte, hc, hh]⟩)
  refine .inr (.inr ?_)
  rcases hf : s.fsm with _ | _ | _
  · have e : decodeByte b s = decodeIdle b s := by simp [decodeByte, hc, hh, hf]
    by_cases h1 : b = s.delim.startByte
    · exact .inl ⟨hc, hh, rfl, h1, by rw [e, decodeIdle, if_pos h1]⟩
    · exact .inr (.inl ⟨hc, hh, rfl, h1, by rw [e, decodeIdle, if_neg h1]⟩)
  · have e : decodeByte b s = decodeInFrame b s := by simp [decodeByte, hc, hh, hf]
    refine .inr (.inr ?_)
    by_cases h1 : b = s.delim.endByte
    · exact .inl ⟨hc, hh, rfl, h1, by rw [e, decodeInFrame, if_pos h1]; rfl⟩
    by_cases h2 : b = s.delim.startByte
    · exact .inr (.inl ⟨hc, hh, rfl, h1, h2, by rw [e, decodeInFrame, if_neg h1, if_pos h2]⟩)
    refine .inr (.inr ?_)
    by_cases h3 : b = s.delim.escByte
    · exact .inl ⟨hc, hh, rfl, h1, h2, h3, by rw [e, decodeInFrame, if_neg h1, if_neg h2, if_pos h3]⟩
    · exact .inr (.inl ⟨hc, hh, rfl, h1, h2, h3, by rw [e, decodeInFrame, if_neg h1, if_neg h2, if_neg h3]⟩)
  · have e : decodeByte b s = decodeEscaping b s := by simp [decodeByte, hc, hh, hf]
    refine .inr (.inr (.inr (.inr (.inr (.inr ?_)))))
    rcases Bool.eq_false_or_eq_true (tableGet s.act (tableGet s.dm b)) with ha | ha
    · exact .inl ⟨hc, hh, rfl, ha, by rw [e, decodeEscaping]; simp [ha]⟩
    · exact .inr ⟨hc, hh, rfl, ha, by rw [e, decodeEscaping]; simp [ha]⟩

/-- The answers that fit, and the refusal of every other (R225). -/
theorem answerPending_cases (a : Answer) (s : State) :
    (a = .nothing ∧ answerPending a s = respond .ok s) ∨
    (a = .ack ∧ s.pend = .pkt ∧ answerPending a s = respond .ok (ackPacket s)) ∨
    (∃ k, a = .ack ∧ s.pend = .rst k ∧ answerPending a s = respond .ok (ackRestart k s)) ∨
    (∃ x k, a = .grant ∧ s.pend = .alloc x k ∧ answerPending a s = respond .ok (grantAlloc x k s)) ∨
    (∃ x k, a = .deny ∧ s.pend = .alloc x k ∧ answerPending a s = respond .ok (denyAlloc s)) ∨
    (a ≠ .nothing ∧ ¬(a = .ack ∧ s.pend = .pkt) ∧ (∀ k, ¬(a = .ack ∧ s.pend = .rst k)) ∧
      (∀ x k, ¬((a = .grant ∨ a = .deny) ∧ s.pend = .alloc x k)) ∧
      answerPending a s = respond .buserr s) := by
  cases a <;> cases hp : s.pend <;> simp [answerPending, hp]

/-- INIT is refused in a context, fails on a cause of R124, or constructs the context (R125). -/
theorem initContext_cases (s : State) :
    (s.cfgd = true ∧ initContext s = finish .errState .none 0#24 s) ∨
    (s.cfgd = false ∧ configError s = true ∧ initContext s = finish .errConfig .none 0#24 s) ∨
    (s.cfgd = false ∧ configError s = false ∧
      initContext s =
        finish .ok .none 0#24
          { s with
            dm := deriveDm s.em, fsm := .idle, length := 0, rb := [], capacity := 0, halt := false,
            cfgd := true }) := by
  cases hc : s.cfgd <;> cases he : configError s <;> simp [initContext, hc, he]

/-- No cause of R124 (a) to (e) holds. -/
theorem configError_eq_false_iff (s : State) :
    configError s = false ↔
      s.delim.escByte ≠ s.delim.startByte ∧ s.delim.escByte ≠ s.delim.endByte ∧ s.ctrl.pktEn = true ∧
      s.ctrl.allocEn = true ∧ (s.params.checkInj = true → injectiveOnActive s.act s.em = true) := by
  simp only [configError, Bool.or_eq_false_iff, Bool.and_eq_false_iff, Bool.not_eq_false', beq_eq_false_iff_ne,
    ne_eq, and_assoc]
  cases s.params.checkInj <;> simp

/-- DEINIT (R127). -/
theorem deinitContext_cases (s : State) :
    (s.cfgd = false ∧ deinitContext s = finish .errState .none 0#24 s) ∨
    (s.cfgd = true ∧
      deinitContext s =
        finish .ok .none 0#24
          { s with capacity := 0, rb := [], fsm := .idle, length := 0, halt := false, cfgd := false }) := by
  cases hc : s.cfgd <;> simp [deinitContext, hc]

/-- RESUME (R170). -/
theorem resumeDecoding_cases (s : State) :
    (s.cfgd = false ∧ resumeDecoding s = finish .errState .none 0#24 s) ∨
    (s.cfgd = true ∧ resumeDecoding s = finish .ok .none 0#24 { s with halt := false }) := by
  cases hc : s.cfgd <;> simp [resumeDecoding, hc]

/-- RESTART (R171). -/
theorem restartDecoding_cases (s : State) :
    (s.cfgd = false ∧ restartDecoding s = finish .errState .none 0#24 s) ∨
    (s.cfgd = true ∧
      restartDecoding s =
        finish .ok .none 0#24 { s with length := 0, rb := [], fsm := .idle, halt := false }) := by
  cases hc : s.cfgd <;> simp [restartDecoding, hc]

/-- The outcomes of ENCODE (R201, R205). -/
theorem encodePayload_cases (n c : Nat) (s : State) :
    (s.cfgd = false ∧ encodePayload n c s = .next (finish .errState .none 0#24 s)) ∨
    (s.cfgd = true ∧ (s.params.epSize < n ∨ s.params.eoSize < c) ∧
      encodePayload n c s = .next (finish .errRange .none 0#24 s)) ∨
    (s.cfgd = true ∧ n ≤ s.params.epSize ∧ c ≤ s.params.eoSize ∧ s.ep.readFrom 0 n = none ∧
      encodePayload n c s = .fault .encodeUnwrittenCell) ∨
    (∃ p, s.cfgd = true ∧ n ≤ s.params.epSize ∧ c ≤ s.params.eoSize ∧ s.ep.readFrom 0 n = some p ∧
      c < requiredLength s.act p ∧ encodePayload n c s = .next (finish .errOverflow .none 0#24 s)) ∨
    (∃ p, s.cfgd = true ∧ n ≤ s.params.epSize ∧ c ≤ s.params.eoSize ∧ s.ep.readFrom 0 n = some p ∧
      requiredLength s.act p ≤ c ∧
      encodePayload n c s =
        .next (finish .ok .none (BitVec.ofNat 24 (requiredLength s.act p))
          { s with eo := s.eo.writeFrom 0 (frameOf s p) })) := by
  cases hc : s.cfgd
  · exact .inl ⟨rfl, by simp [encodePayload, hc]⟩
  refine .inr ?_
  by_cases hr : s.params.epSize < n ∨ s.params.eoSize < c
  · exact .inl ⟨rfl, hr, by simp [encodePayload, hc, hr]⟩
  refine .inr ?_
  have h1 : n ≤ s.params.epSize := by omega
  have h2 : c ≤ s.params.eoSize := by omega
  cases hp : s.ep.readFrom 0 n with
  | none => exact .inl ⟨rfl, h1, h2, rfl, by simp [encodePayload, hc, hr, hp]⟩
  | some p =>
    refine .inr ?_
    by_cases ho : c < requiredLength s.act p
    · exact .inl ⟨p, rfl, h1, h2, rfl, ho, by simp [encodePayload, hc, hr, hp, ho]⟩
    · exact .inr ⟨p, rfl, h1, h2, rfl, by omega, by simp [encodePayload, hc, hr, hp, ho]⟩

/-- The length of a frame is the required length (R203). -/
theorem length_stuffed (act : Table Bool) (em : Table Byte) (esc : Byte) (p : List Byte) :
    (stuffed act em esc p).length = p.length + p.countP fun b => tableGet act b := by
  induction p with
  | nil => rfl
  | cons b p ih =>
    cases h : tableGet act b <;> simp [stuffed, stuffByte, h, ih] <;> omega

theorem length_frameOf (s : State) (p : List Byte) : (frameOf s p).length = requiredLength s.act p := by
  simp [frameOf, length_stuffed, requiredLength]
  omega

/-- A CMD write is refused, illegal, or runs its command (R92, R97, R224). -/
theorem writeCommand_cases (d : Word) (s : State) :
    (s.pend ≠ .none ∧ writeCommand d s = .next (respond .buserr s)) ∨
    (∃ e, s.pend = .none ∧ decodeCommand d = .error e ∧
      writeCommand d s = .next (respond .ok (finish .errIllegal .none 0#24 s))) ∨
    (∃ c, s.pend = .none ∧ decodeCommand d = .ok c ∧ writeCommand d s = exec c.toInstr s) := by
  by_cases hp : s.pend = .none
  · refine .inr ?_
    cases hd : decodeCommand d with
    | error e => exact .inl ⟨e, hp, rfl, by simp [writeCommand, busy, hp, hd]⟩
    | ok c => exact .inr ⟨c, hp, rfl, by cases c <;> simp [writeCommand, busy, hp, hd, runCommand, exec, Command.toInstr]⟩
  · exact .inl ⟨hp, by simp [writeCommand, busy, hp]⟩

/-- A step takes the host's next input (R220, R270, R271). -/
theorem step_cases (s : State) :
    (s.script = [] ∧ step s = .next s) ∨
    (∃ t rest, s.script = .bus t :: rest ∧ step s = exec (decodeTransaction t) { s with script := rest }) ∨
    (∃ rest, s.script = .reset :: rest ∧ step s = .next (hostReset { s with script := rest })) := by
  rcases h : s.script with _ | ⟨_ | _, rest⟩
  · exact .inl ⟨rfl, by simp [step, h]⟩
  · exact .inr (.inl ⟨_, rest, rfl, by simp [step, h]⟩)
  · exact .inr (.inr ⟨rest, rfl, by simp [step, h]⟩)

end Sys2Proof.Machine
end

