-- ==== Sys2Proof/Laws/DecodeCall.lean ====
section
/-! SUPPORT. What one byte of a decode call can do (30_encoding.md R109): the CMD write of DECB, then the host's answer. -/

namespace Sys2Proof.Machine

/-- With nothing pending, the CMD write of DECB b is DECB b (R92). -/
theorem exec_cmd_decb {s : State} (b : Byte) (hp : s.pend = .none) :
    exec (.wr32Cmd (encodeCommand (.decb b))) s = .next (respond .ok (decodeByte b s)) := by
  have hb : busy s = false := by simp [busy, hp]
  show writeCommand _ s = _
  simp only [writeCommand, hb, decodeCommand_encodeCommand]
  rfl

/-- READPKT writes RB_IDX and the response, nothing else (R229). -/
theorem readPacket_frame (js : List Nat) (s : State) :
    ∃ r x, readPacket js s = .next { s with rbIdx := r, bus := x } := by
  induction js generalizing s with
  | nil => exact ⟨s.rbIdx, s.bus, rfl⟩
  | cons j js ih =>
    have read : ∀ u : State, ∃ x, exec (.rd32 0x0003C) u = .next { u with bus := x } := by
      intro u
      rcases readRbData_cases u with ⟨b, _, _, e⟩ | ⟨_, e⟩
      · exact ⟨_, congrArg Host.Outcome.next e⟩
      · exact ⟨_, congrArg Host.Outcome.next e⟩
    obtain ⟨x, hx⟩ := read (replyOk { s with rbIdx := BitVec.ofNat 32 j })
    obtain ⟨r, y, hy⟩ := ih { replyOk { s with rbIdx := BitVec.ofNat 32 j } with bus := x }
    refine ⟨r, y, ?_⟩
    show andThen (exec (.rd32 0x0003C) (replyOk { s with rbIdx := BitVec.ofNat 32 j })) (readPacket js) = _
    rw [hx]
    exact hy

/-- The answer to a pending event; a packet is read out before it is acknowledged (R166 to R169). -/
theorem answerEvent_cases (grants : State → Bool) (s : State) :
    (s.pend = .none ∧ answerEvent grants s = .next s) ∨
    (s.pend = .pkt ∧ ∃ r, answerEvent grants s = .next (respond .ok (ackPacket { s with rbIdx := r }))) ∨
    (∃ k, s.pend = .rst k ∧ answerEvent grants s = .next (respond .ok (ackRestart k s))) ∨
    (∃ x k, s.pend = .alloc x k ∧ answerEvent grants s = .next (respond .ok (grantAlloc x k s))) ∨
    (∃ x k, s.pend = .alloc x k ∧ answerEvent grants s = .next (respond .ok (denyAlloc s))) := by
  cases hp : s.pend with
  | none => exact .inl ⟨rfl, by simp [answerEvent, hp]⟩
  | pkt =>
    refine .inr (.inl ⟨rfl, ?_⟩)
    obtain ⟨r, x, e⟩ := readPacket_frame (List.range s.length) (reply (BitVec.ofNat 32 s.length) s)
    refine ⟨r, ?_⟩
    have : answerEvent grants s =
        andThen (readPacket (List.range s.length) (reply (BitVec.ofNat 32 s.length) s)) (exec (.wr32Resp 1)) := by
      simp only [answerEvent, hp]; rfl
    rw [this, e]
    show Host.Outcome.next (answerPending .ack _) = _
    simp [answerPending, hp, ackPacket]
    rfl
  | rst k =>
    refine .inr (.inr (.inl ⟨k, rfl, ?_⟩))
    have : answerEvent grants s = .next (answerPending .ack s) := by simp only [answerEvent, hp]; rfl
    rw [this]; simp [answerPending, hp]
  | alloc x k =>
    cases hg : grants s with
    | true =>
      refine .inr (.inr (.inr (.inl ⟨x, k, rfl, ?_⟩)))
      have : answerEvent grants s = .next (answerPending .grant s) := by simp only [answerEvent, hp, hg]; rfl
      rw [this]; simp [answerPending, hp]
    | false =>
      refine .inr (.inr (.inr (.inr ⟨x, k, rfl, ?_⟩)))
      have : answerEvent grants s = .next (answerPending .deny s) := by simp only [answerEvent, hp, hg]; rfl
      rw [this]; simp [answerPending, hp]

/-- With nothing pending, one byte of DECODE is DECB and the answer to what it posts. -/
theorem decodeOne_eq (grants : State → Bool) (b : Byte) {s : State} (hp : s.pend = .none) :
    decodeOne grants b s = answerEvent grants (respond .ok (decodeByte b s)) := by
  simp only [decodeOne, exec_cmd_decb b hp]
  rfl

/-- How a byte that ends in ERR_RESOURCE leaves the state: halted, the frame as it was, no sink called (R164, R168). -/
structure Exhausted (s t : State) : Prop where
  cfgd : t.cfgd = true
  halt : t.halt = true
  result : t.result = ⟨.errResource, .none, 0#24⟩
  fsm : t.fsm = s.fsm
  length : t.length = s.length
  capacity : t.capacity = s.capacity
  rb : t.rb = s.rb
  rstByte : t.rstByte = s.rstByte
  history : ∃ new, t.history = s.history ++ new ∧ ∀ e ∈ new, e.isCallback = false

/-- With nothing pending, one byte of DECODE completes with nothing pending; ERR_RESOURCE leaves the frame as it was. -/
theorem decodeOne_next (grants : State → Bool) (b : Byte) {s : State} (hp : s.pend = .none) :
    ∃ t, decodeOne grants b s = .next t ∧ t.pend = .none ∧ (t.result.code = .errResource → Exhausted s t) := by
  have one : decodeOne grants b s = answerEvent grants (respond .ok (decodeByte b s)) := decodeOne_eq grants b hp
  have done : ∀ {c e} {u : State}, decodeByte b s = finish c e 0#24 u → u.pend = .none → c ≠ .errResource →
      ∃ t, decodeOne grants b s = .next t ∧ t.pend = .none ∧ t.result.code ≠ .errResource := by
    intro c e u h hu hc
    rw [one, h]
    refine ⟨respond .ok (finish c e 0#24 u), ?_, hu, hc⟩
    simp only [answerEvent, respond_pend, finish_pend, hu]
  have grow : ∀ {x k}, decodeByte b s = appendByte x k s → s.cfgd = true →
      ∃ t, decodeOne grants b s = .next t ∧ t.pend = .none ∧ (t.result.code = .errResource → Exhausted s t) := by
    intro x k h hc
    rcases appendByte_cases x k s with ⟨_, e⟩ | ⟨_, e⟩
    · obtain ⟨t, h1, h2, h3⟩ := done (h.trans e) hp (by decide)
      exact ⟨t, h1, h2, fun h => absurd h h3⟩
    · rcases growBuffer_cases x k s with ⟨_, e'⟩ | ⟨_, e'⟩
      · refine ⟨respond .ok (finish .errResource .none 0#24 { s with halt := true }), ?_, hp, fun _ => ?_⟩
        · rw [one, h, e, e']
          simp only [answerEvent, respond_pend, finish_pend, hp]
        · exact ⟨hc, rfl, rfl, rfl, rfl, rfl, rfl, rfl, [], by simp, by simp⟩
      · rcases answerEvent_cases grants (respond .ok (decodeByte b s)) with ⟨p, _⟩ | ⟨p, _⟩ | ⟨_, p, _⟩ | ⟨y, l, _, a⟩ | ⟨y, l, _, a⟩
        iterate 3 rw [h, e, e'] at p; cases p
        · refine ⟨_, one.trans a, by rw [h, e, e']; rfl, fun hh => ?_⟩
          cases hh
        · refine ⟨_, one.trans a, rfl, fun _ => ?_⟩
          rw [h, e, e']
          refine ⟨hc, rfl, rfl, rfl, rfl, rfl, rfl, rfl, [.allocRequest (nextCapacity s.capacity), .allocAnswer false], ?_, ?_⟩
          · simp [denyAlloc]
          · simp [HistoryEntry.isCallback]
  have rest : ∀ {k}, decodeByte b s = restartFrame b k s → ∃ t, decodeOne grants b s = .next t ∧ t.pend = .none ∧ t.result.code ≠ .errResource := by
    intro k h
    rcases restartFrame_cases b k s with ⟨_, e⟩ | ⟨_, e⟩
    · refine ⟨respond .ok (ackRestart k (respond .ok (decodeByte b s))), ?_, rfl, by simp [ackRestart]⟩
      rcases answerEvent_cases grants (respond .ok (decodeByte b s)) with ⟨p, _⟩ | ⟨p, _⟩ | ⟨l, p, a⟩ | ⟨_, _, p, _⟩ | ⟨_, _, p, _⟩
      iterate 2 rw [h, e] at p; cases p
      · have : l = k := by rw [h, e] at p; cases p; rfl
        exact one.trans (this ▸ a)
      all_goals (rw [h, e] at p; cases p)
    · exact done (h.trans e) hp (by decide)
  have weak : (∃ t, decodeOne grants b s = .next t ∧ t.pend = .none ∧ t.result.code ≠ .errResource) →
      ∃ t, decodeOne grants b s = .next t ∧ t.pend = .none ∧ (t.result.code = .errResource → Exhausted s t) :=
    fun ⟨t, h1, h2, h3⟩ => ⟨t, h1, h2, fun h => absurd h h3⟩
  rcases decodeByte_cases b s with ⟨_, e⟩ | ⟨_, _, e⟩ | ⟨_, _, _, _, e⟩ | ⟨_, _, _, _, e⟩ | ⟨_, _, _, _, e⟩ |
    ⟨_, _, _, _, _, e⟩ | ⟨_, _, _, _, _, _, e⟩ | ⟨hc, _, _, _, _, _, e⟩ | ⟨hc, _, _, _, e⟩ | ⟨_, _, _, _, e⟩
  · exact weak (done e hp (by decide))
  · exact weak (done e hp (by decide))
  · exact weak (done e hp (by decide))
  · exact weak (done e hp (by decide))
  · rcases answerEvent_cases grants (respond .ok (decodeByte b s)) with ⟨p, _⟩ | ⟨_, r, a⟩ | ⟨_, p, _⟩ | ⟨_, _, p, _⟩ | ⟨_, _, p, _⟩
    · rw [e] at p; cases p
    · exact ⟨_, one.trans a, rfl, fun h => by cases h⟩
    all_goals (rw [e] at p; cases p)
  · exact weak (rest e)
  · exact weak (done e hp (by decide))
  · exact grow e hc
  · exact grow e hc
  · exact weak (rest e)

/-- A halted decoder consumes nothing (R248). -/
theorem decodeOne_halted (grants : State → Bool) (b : Byte) {s : State} (hp : s.pend = .none) (hc : s.cfgd = true)
    (hh : s.halt = true) :
    decodeOne grants b s = .next { s with result := ⟨.errHalted, .none, 0#24⟩, bus := .ok } := by
  have e : decodeByte b s = finish .errHalted .none 0#24 s := by simp [decodeByte, hc, hh]
  rw [decodeOne_eq grants b hp, e]
  simp only [answerEvent, respond_pend, finish_pend, hp]
  simp only [respond, finish, ← hp]

end Sys2Proof.Machine
end

