-- ==== Sys2Proof/Laws/PerInstr.lean ====
section
/-! SUPPORT. Laws made per instruction. The family TableRow: an instruction's code, written as spec/opcode_table.json
numbers it, has the bits that the table fixes for its row, and the table layout of the code is read back as that code. -/

namespace Sys2Proof.Laws

/-- How many bits the table gives the row, in whole bytes: 32 for a command word, 19 rounded up to 24 for a bus row. -/
def rowBits : Instr → Nat
  | .init => 32
  | .deinit => 32
  | .decb _ => 32
  | .resume => 32
  | .restart => 32
  | .encode _ _ => 32
  | .rd32 _ => 24
  | .wr32Ctrl _ => 24
  | .wr32Delim _ => 24
  | .wr32User _ => 24
  | .wr32Cmd _ => 24
  | .wr32Resp _ => 24
  | .wr32RbIdx _ => 24
  | .wr32Ent _ _ => 24
  | .wr32Ep _ _ => 24
  | .wr32Eo _ _ => 24
  | .wr32Ro _ _ => 24

/-- The fields that the table fixes, each as its lowest bit, its width and its value. -/
def fixedFields : Instr → List (Nat × Nat × Nat)
  | .init => [(0, 32, 0x10000000)]
  | .deinit => [(0, 32, 0x20000000)]
  | .decb _ => [(8, 24, 0x300000)]
  | .resume => [(0, 32, 0x40000000)]
  | .restart => [(0, 32, 0x50000000)]
  | .encode _ _ => [(28, 4, 0x6)]
  | .rd32 _ => [(18, 1, 0)]
  | .wr32Ctrl _ => [(0, 19, 0b1000000000000000100)]
  | .wr32Delim _ => [(0, 19, 0b1000000000000001000)]
  | .wr32User _ => [(0, 19, 0b1000000000000001100)]
  | .wr32Cmd _ => [(0, 19, 0b1000000000000010000)]
  | .wr32Resp _ => [(0, 19, 0b1000000000000101100)]
  | .wr32RbIdx _ => [(0, 19, 0b1000000000000111000)]
  | .wr32Ent _ _ => [(10, 9, 0b100000001), (0, 2, 0b00)]
  | .wr32Ep _ _ => [(16, 3, 0b101), (0, 2, 0b00)]
  | .wr32Eo _ _ => [(16, 3, 0b110), (0, 2, 0b00)]
  | .wr32Ro _ _ => [(18, 1, 1)]

/-- A code written as the table numbers it, the data word of a write above the row's three bytes (log entry 3). -/
def tableWord : Code → Nat
  | .command w => w.toNat
  | .bus (.read a) => a.toNat
  | .bus (.write a d) => 2 ^ 18 + a.toNat + d.toNat * 2 ^ 24

/-- The fixed bits of the row are in the code, and the table layout loses none of it. -/
def TableRow.Statement (i : Instr) : Prop :=
  (∀ f ∈ fixedFields i, tableWord (encode i) / 2 ^ f.1 % 2 ^ f.2.1 = f.2.2) ∧
    codeOfTable (rowBits i) (tableWord (encode i)) = some (encode i)

theorem codeOfTable_command (w : Word) : codeOfTable 32 (tableWord (.command w)) = some (.command w) := by
  simp [codeOfTable, tableWord, w.isLt]

/-- A bus row's word, when no bit is set that the row does not have. -/
theorem codeOfTable_bus {w : Nat} (h₁ : w / 2 ^ 19 % 2 ^ 5 = 0) (h₂ : w < 2 ^ 56) (h₃ : w / 2 ^ 18 % 2 = 0 → w < 2 ^ 18) :
    codeOfTable 24 w = some (.bus (transactionOfTable w)) := by
  rw [codeOfTable, if_neg (by decide), if_pos ⟨h₁, h₂, h₃⟩]

theorem codeOfTable_read (a : Addr) : codeOfTable 24 (tableWord (.bus (.read a))) = some (.bus (.read a)) := by
  have ha := a.isLt
  have e : tableWord (.bus (.read a)) = a.toNat := rfl
  rw [e, codeOfTable_bus (by omega) (by omega) (by omega), transactionOfTable, if_pos (by omega)]
  simp

theorem codeOfTable_write (a : Addr) (d : Word) :
    codeOfTable 24 (tableWord (.bus (.write a d))) = some (.bus (.write a d)) := by
  have ha := a.isLt
  have hd := d.isLt
  have e : tableWord (.bus (.write a d)) = 2 ^ 18 + a.toNat + d.toNat * 2 ^ 24 := rfl
  have e₁ : BitVec.ofNat 18 (2 ^ 18 + a.toNat + d.toNat * 2 ^ 24) = a := by
    apply BitVec.eq_of_toNat_eq
    rw [BitVec.toNat_ofNat]
    omega
  have e₂ : BitVec.ofNat 32 ((2 ^ 18 + a.toNat + d.toNat * 2 ^ 24) / 2 ^ 24) = d := by
    apply BitVec.eq_of_toNat_eq
    rw [BitVec.toNat_ofNat]
    omega
  rw [e, codeOfTable_bus (by omega) (by omega) (by omega), transactionOfTable, if_neg (by omega), e₁, e₂]

namespace TableRow

theorem init : Statement .init := ⟨by decide, codeOfTable_command _⟩

theorem deinit : Statement .deinit := ⟨by decide, codeOfTable_command _⟩

theorem decb (b : Byte) : Statement (.decb b) := by
  refine ⟨?_, codeOfTable_command _⟩
  have := b.isLt
  simp [fixedFields, tableWord, encode, encodeCommand_decb_toNat]
  omega

theorem resume : Statement .resume := ⟨by decide, codeOfTable_command _⟩

theorem restart : Statement .restart := ⟨by decide, codeOfTable_command _⟩

theorem encode (n c : BitVec 14) : Statement (.encode n c) := by
  refine ⟨?_, codeOfTable_command _⟩
  have := n.isLt
  have := c.isLt
  simp [fixedFields, tableWord, Sys2Proof.encode, encodeCommand_encode_toNat]
  omega

theorem rd32 (a : Addr) : Statement (.rd32 a) := by
  refine ⟨?_, codeOfTable_read _⟩
  have := a.isLt
  simp [fixedFields, tableWord, Sys2Proof.encode]
  omega

theorem wr32Ctrl (d : Word) : Statement (.wr32Ctrl d) := by
  refine ⟨?_, codeOfTable_write _ _⟩
  simp [fixedFields, tableWord, Sys2Proof.encode]
  omega

theorem wr32Delim (d : Word) : Statement (.wr32Delim d) := by
  refine ⟨?_, codeOfTable_write _ _⟩
  simp [fixedFields, tableWord, Sys2Proof.encode]
  omega

theorem wr32User (d : Word) : Statement (.wr32User d) := by
  refine ⟨?_, codeOfTable_write _ _⟩
  simp [fixedFields, tableWord, Sys2Proof.encode]
  omega

theorem wr32Cmd (d : Word) : Statement (.wr32Cmd d) := by
  refine ⟨?_, codeOfTable_write _ _⟩
  simp [fixedFields, tableWord, Sys2Proof.encode]
  omega

theorem wr32Resp (d : Word) : Statement (.wr32Resp d) := by
  refine ⟨?_, codeOfTable_write _ _⟩
  simp [fixedFields, tableWord, Sys2Proof.encode]
  omega

theorem wr32RbIdx (d : Word) : Statement (.wr32RbIdx d) := by
  refine ⟨?_, codeOfTable_write _ _⟩
  simp [fixedFields, tableWord, Sys2Proof.encode]
  omega

theorem wr32Ent (v : Byte) (d : Word) : Statement (.wr32Ent v d) := by
  refine ⟨?_, codeOfTable_write _ _⟩
  have := v.isLt
  simp [fixedFields, tableWord, Sys2Proof.encode, entAddr_toNat]
  omega

theorem wr32Ep (k : BitVec 14) (d : Word) : Statement (.wr32Ep k d) := by
  refine ⟨?_, codeOfTable_write _ _⟩
  have := k.isLt
  simp [fixedFields, tableWord, Sys2Proof.encode, epAddr_toNat]
  omega

theorem wr32Eo (k : BitVec 14) (d : Word) : Statement (.wr32Eo k d) := by
  refine ⟨?_, codeOfTable_write _ _⟩
  have := k.isLt
  simp [fixedFields, tableWord, Sys2Proof.encode, eoAddr_toNat]
  omega

theorem wr32Ro (a : Addr) (d : Word) : Statement (.wr32Ro a d) := by
  refine ⟨?_, codeOfTable_write _ _⟩
  have := a.isLt
  simp [fixedFields, tableWord, Sys2Proof.encode]
  omega

end TableRow

end Sys2Proof.Laws
end

