-- ==== Sys2Proof/Tests/Slice0.lean ====
section
/-! SUPPORT. The model's own tests. Expected values come from spec/95_test_vectors.md (a vector's id stands in the
comment) or are worked out by hand from the rule named. The last part shows, for every obligation with hypotheses, a
concrete state and operands that meet them all. -/

set_option Elab.async false

open Sys2Proof Sys2Proof.Machine

namespace Sys2Proof.Tests

/-! ### Helpers -/

/-- The next state of an outcome, if it is one. -/
def nextState (o : Host.Outcome State Fault Refusal) : Option State :=
  match o with
  | .next s => some s
  | _ => none

/-- What `f` sees of the state after an instruction. -/
def afterExec {α : Type} (i : Instr) (s : State) (f : State → α) : Option α := (nextState (exec i s)).map f

/-- What `f` sees of the state after a step. -/
def afterStep {α : Type} (s : State) (f : State → α) : Option α := (nextState (step s)).map f

/-- RESULT and STATUS as a host reads them. -/
def report (s : State) : Word × Word := (resultWord s.result, statusWord s)

theorem of_afterExec {α : Type} {i : Instr} {s : State} {f : State → α} {v : α} (h : afterExec i s f = some v) :
    ∃ t, exec i s = .next t ∧ f t = v := by
  unfold afterExec at h
  cases e : exec i s <;> simp_all [nextState]

theorem of_afterStep {α : Type} {s : State} {f : State → α} {v : α} (h : afterStep s f = some v) :
    ∃ t, step s = .next t ∧ f t = v := by
  unfold afterStep at h
  cases e : step s <;> simp_all [nextState]

/-- The tables of CFG-A: active set, encode map and decode map. -/
def actA : Table Bool := tableSet (tableSet (Vector.replicate 256 false) 0xC0 true) 0xDB true
def emA : Table Byte := tableSet (tableSet (Vector.replicate 256 0x00#8) 0xC0 0xDC) 0xDB 0xDD
def dmA : Table Byte := tableSet (tableSet (tableSet (Vector.replicate 256 0x00#8) 0x00 0xFF) 0xDC 0xC0) 0xDD 0xDB

/-- CFG-A before INIT, and as after its setup. -/
def setupA : State :=
  { State.reset with ctrl := { pktEn := true, rstEn := false, allocEn := true }, act := actA, em := emA }
def cfgA : State := { setupA with cfgd := true, dm := dmA }

/-- The tables of CFG-B. -/
def actB : Table Bool := tableSet (tableSet (tableSet (Vector.replicate 256 false) 0x02 true) 0x03 true) 0x10 true
def emB : Table Byte := tableSet (tableSet (tableSet (Vector.replicate 256 0x00#8) 0x02 0x82) 0x03 0x83) 0x10 0x90
def dmB : Table Byte :=
  tableSet (tableSet (tableSet (tableSet (Vector.replicate 256 0x00#8) 0x00 0xFF) 0x82 0x02) 0x83 0x03) 0x90 0x10

/-- CFG-B+R before INIT, and as after its setup. -/
def setupB : State :=
  { State.reset with
    ctrl := { pktEn := true, rstEn := true, allocEn := true }
    delim := { startByte := 0x02, endByte := 0x03, escByte := 0x10 }, act := actB, em := emB }
def cfgB : State := { setupB with cfgd := true, dm := dmB }

/-- A frame in progress with `rb` received into a buffer of 256 bytes. -/
def inFrame (s : State) (rb : List Byte) : State :=
  { s with fsm := .inFrame, rb := rb, length := rb.length, capacity := 256 }

/-- The same, with ESC just received. -/
def escaping (s : State) (rb : List Byte) : State := { inFrame s rb with fsm := .escaping }

/-- V-GROW-4's start: P_RB_MAX 256, the buffer full; and its end. -/
def full : State :=
  { inFrame cfgA (List.replicate 256 0x41) with params := { Params.default with rbMaxExp := 0 } }
def halted : State := { full with halt := true, result := ⟨.errResource, .none, 0⟩ }

/-- V-GROW-1, a packet pending with its two bytes, and V-DEC-4b. -/
def allocPending : State := { cfgA with fsm := .inFrame, allocSize := 256, pend := .alloc 0x01 .data }
def packetPending : State := { inFrame cfgA [0xC0, 0x01] with fsm := .idle, pend := .pkt }
def restartPending : State := { cfgB with rstByte := 0x02, pend := .rst .dup }

/-- The payload memory of V-ENC-1, in a context. -/
def loaded : State := { cfgA with ep := [(0, 0xC0), (1, 0x01)] }

/-- A state whose host does `x` next. -/
def does (s : State) (x : HostInput) : State := { s with script := [x] }

/-! ### Well-formedness: the one check there is -/

theorem test_illformed_ro_row_at_ctrl : (Instr.wr32Ro 0x00004 0).wf = false := by decide
theorem test_illformed_ro_row_at_cmd : (Instr.wr32Ro 0x00010 0).wf = false := by decide
theorem test_illformed_ro_row_at_ent : (Instr.wr32Ro 0x007FC 0).wf = false := by decide
theorem test_illformed_ro_row_at_ep : (Instr.wr32Ro 0x1FFFC 0).wf = false := by decide
theorem test_illformed_ro_row_at_eo : (Instr.wr32Ro 0x2FFFC 0).wf = false := by decide
theorem test_wellformed_ro_row : (Instr.wr32Ro 0x00014 0).wf = true ∧ (Instr.wr32Ro 0x30000 0).wf = true := by decide

/-! ### Decoding, one word for each row written out from its encoding (R96, R107, opcode_table.json) -/

theorem test_decode_init : decodeTableWord 32 0b00010000000000000000000000000000 = some .init := by decide
theorem test_decode_deinit : decodeTableWord 32 0b00100000000000000000000000000000 = some .deinit := by decide
theorem test_decode_decb : decodeTableWord 32 0b00110000000000000000000011000000 = some (.decb 0xC0) := by decide
theorem test_decode_resume : decodeTableWord 32 0b01000000000000000000000000000000 = some .resume := by decide
theorem test_decode_restart : decodeTableWord 32 0b01010000000000000000000000000000 = some .restart := by decide
/-- V-ENC-7: n = 4 in bits [27:14], C = 9 in bits [13:0]. -/
theorem test_decode_encode : decodeTableWord 32 0b01100000000000010000000000001001 = some (.encode 4 9) := by decide
theorem test_decode_rd32 : decodeTableWord 24 0b0000000011101101100 = some (.rd32 0x0076C) := by decide
theorem test_decode_wr32Ctrl : decodeTableWord 24 (0b1000000000000000100 + 5 * 2 ^ 24) = some (.wr32Ctrl 5) := by decide
theorem test_decode_wr32Delim :
    decodeTableWord 24 (0b1000000000000001000 + 0x00100302 * 2 ^ 24) = some (.wr32Delim 0x00100302) := by decide
theorem test_decode_wr32User : decodeTableWord 24 0b1000000000000001100 = some (.wr32User 0) := by decide
theorem test_decode_wr32Cmd :
    decodeTableWord 24 (0b1000000000000010000 + 0x300000C0 * 2 ^ 24) = some (.wr32Cmd 0x300000C0) := by decide
theorem test_decode_wr32Resp : decodeTableWord 24 (0b1000000000000101100 + 2 * 2 ^ 24) = some (.wr32Resp 2) := by decide
theorem test_decode_wr32RbIdx : decodeTableWord 24 (0b1000000000000111000 + 1 * 2 ^ 24) = some (.wr32RbIdx 1) := by decide
theorem test_decode_wr32Ent :
    decodeTableWord 24 (0b1000000011101101100 + 0x1DD * 2 ^ 24) = some (.wr32Ent 0xDB 0x1DD) := by decide
theorem test_decode_wr32Ep : decodeTableWord 24 (0b1010000000000000100 + 1 * 2 ^ 24) = some (.wr32Ep 1 1) := by decide
theorem test_decode_wr32Eo :
    decodeTableWord 24 (0b1101000000000000100 + 0xAB * 2 ^ 24) = some (.wr32Eo 8193 0xAB) := by decide
theorem test_decode_wr32Ro :
    decodeTableWord 24 0b1000000000000010100 = some (.wr32Ro 0x00014 0) ∧
    decodeTableWord 24 0b1000000000000000110 = some (.wr32Ro 0x00006 0) := by decide
/-- V-ILL-1, V-INIT-12, V-DEC-E2, V-RST-3. -/
theorem test_decode_illegal :
    decodeTableWord 32 0x00000000 = none ∧ decodeTableWord 32 0x70000000 = none ∧ decodeTableWord 32 0xF0000000 = none ∧
    decodeTableWord 32 0x10000001 = none ∧ decodeTableWord 32 0x30000100 = none ∧
    decodeTableWord 32 0x50000010 = none := by decide

/-! ### The derived decode maps of CFG-A and CFG-B (40_config.md R123 and the configurations of 95_test_vectors.md) -/

theorem actA_get (v : Byte) : tableGet actA v = decide (v = 0xDB#8 ∨ v = 0xC0#8) := by
  simp only [actA, tableGet_tableSet, tableGet_replicate]
  split_ifs <;> simp_all

theorem actB_get (v : Byte) : tableGet actB v = decide (v = 0x10#8 ∨ v = 0x03#8 ∨ v = 0x02#8) := by
  simp only [actB, tableGet_tableSet, tableGet_replicate]
  split_ifs <;> simp_all

theorem emA_get (v : Byte) : tableGet emA v = if v = 0xDB#8 then 0xDD#8 else if v = 0xC0#8 then 0xDC#8 else 0x00#8 := by
  simp only [emA, tableGet_tableSet, tableGet_replicate]
  rfl

theorem emB_get (v : Byte) :
    tableGet emB v = if v = 0x10#8 then 0x90#8 else if v = 0x03#8 then 0x83#8 else if v = 0x02#8 then 0x82#8 else 0x00#8 := by
  simp only [emB, tableGet_tableSet, tableGet_replicate]
  rfl

theorem dmA_get (c : Byte) :
    tableGet dmA c = if c = 0xDD#8 then 0xDB#8 else if c = 0xDC#8 then 0xC0#8 else if c = 0x00#8 then 0xFF#8 else 0x00#8 := by
  simp only [dmA, tableGet_tableSet, tableGet_replicate]
  rfl

theorem dmB_get (c : Byte) :
    tableGet dmB c =
      if c = 0x90#8 then 0x10#8 else if c = 0x83#8 then 0x03#8 else if c = 0x82#8 then 0x02#8 else if c = 0x00#8 then 0xFF#8 else 0x00#8 := by
  simp only [dmB, tableGet_tableSet, tableGet_replicate]
  rfl

theorem test_derive_A : deriveDm emA = dmA := by
  refine deriveDm_unique fun c => ?_
  have small : ∀ j : Byte, j.toNat ≤ 255 := fun j => by have := j.isLt; omega
  simp only [emA_get, dmA_get]
  by_cases h1 : c = 0xDD#8
  · subst h1; exact .inl ⟨by decide, fun j h => by split_ifs at h <;> simp_all⟩
  by_cases h2 : c = 0xDC#8
  · subst h2; exact .inl ⟨by decide, fun j h => by split_ifs at h <;> simp_all⟩
  by_cases h3 : c = 0x00#8
  · subst h3; exact .inl ⟨by decide, fun j _ => small j⟩
  · exact .inr ⟨fun j h => by split_ifs at h <;> simp_all, by simp [h1, h2, h3]⟩

theorem test_derive_B : deriveDm emB = dmB := by
  refine deriveDm_unique fun c => ?_
  have small : ∀ j : Byte, j.toNat ≤ 255 := fun j => by have := j.isLt; omega
  simp only [emB_get, dmB_get]
  by_cases h1 : c = 0x90#8
  · subst h1; exact .inl ⟨by decide, fun j h => by split_ifs at h <;> simp_all⟩
  by_cases h2 : c = 0x83#8
  · subst h2; exact .inl ⟨by decide, fun j h => by split_ifs at h <;> simp_all⟩
  by_cases h4 : c = 0x82#8
  · subst h4; exact .inl ⟨by decide, fun j h => by split_ifs at h <;> simp_all⟩
  by_cases h3 : c = 0x00#8
  · subst h3; exact .inl ⟨by decide, fun j _ => small j⟩
  · exact .inr ⟨fun j h => by split_ifs at h <;> simp_all, by simp [h1, h2, h3, h4]⟩

/-! ### One step of each instruction -/

/-- V-INIT-1; the decode map is `test_derive_A`. -/
theorem test_init_constructs :
    (afterExec .init setupA fun t => (report t, t.length, t.capacity)) = some ((0, 2), 0, 0) := by decide +kernel

/-- V-INIT-5 and V-INIT-6: ESC = START and ESC = END. -/
theorem test_init_config_error :
    (afterExec .init { setupA with delim := { startByte := 0xC0, endByte := 0xC0, escByte := 0xC0 } } report) = some (1, 0) ∧
    (afterExec .init { setupA with delim := { startByte := 0x02, endByte := 0x10, escByte := 0x10 } } report) =
      some (1, 0) := by decide +kernel

/-- V-DEINIT-3. -/
theorem test_deinit_releases :
    (afterExec .deinit { inFrame cfgA [0xC0, 0x01] with fsm := .idle } fun t => (report t, t.length, t.capacity)) =
      some ((0, 0), 0, 0) := by decide +kernel

/-- V-DEINIT-2. -/
theorem test_deinit_needs_context : (afterExec .deinit State.reset report) = some (4, 0) := by decide +kernel

/-- V-DEC-7a. -/
theorem test_decb_unescapes :
    (afterExec (.decb 0xDC) (escaping cfgA []) fun t => (report t, t.rb)) = some ((0x70, 6), [0xC0]) := by
  decide +kernel

/-- V-GROW-9: the byte of a growth is not yet consumed, FSM stays Escaping. -/
theorem test_decb_grows :
    (afterExec (.decb 0xDC) { cfgA with fsm := .escaping } fun t => (statusWord t, t.allocSize, t.length)) =
      some (0x6B, 0x100, 0) := by decide +kernel

/-- V-RES-3. -/
theorem test_resume_clears_halt : (afterExec .resume halted report) = some (0, 6) := by decide +kernel

/-- V-RES-1. -/
theorem test_resume_needs_context : (afterExec .resume State.reset report) = some (4, 0) := by decide +kernel

/-- V-RST-1. -/
theorem test_restart_keeps_capacity :
    (afterExec .restart halted fun t => (report t, t.length, t.capacity, t.rb)) = some ((0, 2), 0, 256, []) := by
  decide +kernel

/-- V-RST-2: no event is posted although the host has a restart sink. -/
theorem test_restart_posts_nothing :
    (afterExec .restart (inFrame cfgB [1, 2, 3]) fun t => (report t, t.history)) = some ((0, 2), []) := by
  decide +kernel

/-- V-ENC-1. -/
theorem test_encode_example :
    (afterExec (.encode 2 16) loaded fun t => (resultWord t.result, t.eo)) =
      some (0x500, [(0, 0xC0), (1, 0xDB), (2, 0xDC), (3, 0x01), (4, 0xC0)]) := by decide +kernel

/-- V-ENC-4b and V-ENC-13. -/
theorem test_encode_overflow_and_unwritten :
    (afterExec (.encode 2 4) loaded fun t => (resultWord t.result, t.eo)) = some (0x3, []) ∧
    (match exec (.encode 1 16) cfgA with | .fault .encodeUnwrittenCell => true | _ => false) = true := by
  decide +kernel

/-- V-BUS-2 and V-BUS-3. -/
theorem test_rd32_reset_values :
    (afterExec (.rd32 0x00008) State.reset fun t => t.bus) = some (.data 0x00DBC0C0) ∧
    (afterExec (.rd32 0x00700) State.reset fun t => t.bus) = some (.data 0x000001DC) ∧
    (afterExec (.rd32 0x00024) State.reset fun t => t.bus) = some (.data 0x20021000) ∧
    (afterExec (.rd32 0x00028) State.reset fun t => t.bus) = some (.data 0x00000010) := by decide +kernel

/-- V-BUS-9 with RB_IDX 1 and 2. -/
theorem test_rd32_rb_data :
    (afterExec (.rd32 0x0003C) { packetPending with rbIdx := 1 } fun t => t.bus) = some (.data 0x00000001) ∧
    (afterExec (.rd32 0x0003C) { packetPending with rbIdx := 2 } fun t => t.bus) = some .buserr := by decide +kernel

/-- `SETCTRL 1, 0, 1` writes 0x00000005. -/
theorem test_wr32Ctrl :
    (afterExec (.wr32Ctrl 5) State.reset fun t => (t.ctrl.pktEn, t.ctrl.rstEn, t.ctrl.allocEn, t.bus)) =
      some (true, false, true, .ok) := by decide +kernel

/-- V-LOCK-1, and `SETDELIM 0x02, 0x03, 0x10` outside a context. -/
theorem test_wr32Delim :
    (afterExec (.wr32Delim 0x00100302) cfgA fun t => (t.bus, delimWord t.delim)) = some (.buserr, 0x00DBC0C0) ∧
    (afterExec (.wr32Delim 0x00100302) State.reset fun t => t.delim) =
      some { startByte := 0x02, endByte := 0x03, escByte := 0x10 } := by decide +kernel

/-- R226. -/
theorem test_wr32User :
    (afterExec (.wr32User 0xCAFE0001) State.reset fun t => (t.bus, t.user)) = some (.ok, 0xCAFE0001) := by
  decide +kernel

/-- V-RSP-7: the command is lost. -/
theorem test_wr32Cmd_busy :
    (afterExec (.wr32Cmd 0x30000001) packetPending fun t => (t.bus, t.length, report t)) =
      some (.buserr, 2, (0, 0x23)) := by decide +kernel

/-- V-DEC-E2: a reserved bit is set. -/
theorem test_wr32Cmd_illegal : (afterExec (.wr32Cmd 0x30000100) cfgA report) = some (5, 2) := by decide +kernel

/-- V-RSP-8: bits [31:2] are ignored. -/
theorem test_wr32Resp_ack : (afterExec (.wr32Resp 5) packetPending report) = some (0x30, 2) := by decide +kernel

/-- V-GROW-2. -/
theorem test_wr32Resp_grant :
    (afterExec (.wr32Resp 2) allocPending fun t => (report t, t.capacity, t.length, t.rb)) =
      some ((0x60, 6), 256, 1, [0x01]) := by decide +kernel

/-- V-LOCK-3. -/
theorem test_wr32RbIdx : (afterExec (.wr32RbIdx 5) cfgA fun t => (t.bus, t.rbIdx)) = some (.ok, 5) := by decide +kernel

/-- V-BUS-12: ACT is bit 8, and reserved bits are dropped. -/
theorem test_wr32Ent :
    (afterExec (.wr32Ent 0x41 0xFFFFFE99) State.reset fun t => entWord (tableGet t.act 0x41) (tableGet t.em 0x41)) =
      some 0x99 := by decide +kernel

/-- V-BUS-10 and V-BUS-8. -/
theorem test_wr32Ep :
    (afterExec (.wr32Ep 0 0x123456C0) cfgA fun t => t.ep) = some [(0, 0xC0)] ∧
    (afterExec (.wr32Ep 4096 1) cfgA fun t => (t.bus, t.ep)) = some (.buserr, []) := by decide +kernel

/-- V-BUS-8. -/
theorem test_wr32Eo :
    (afterExec (.wr32Eo 8193 0xAB) cfgA fun t => t.eo) = some [(8193, 0xAB)] ∧
    (afterExec (.wr32Eo 8194 0xAB) cfgA fun t => t.bus) = some .buserr := by decide +kernel

/-- V-BUS-7. -/
theorem test_wr32Ro : (afterExec (.wr32Ro 0x00014 0) cfgA fun t => (t.bus, report t)) = some (.buserr, (0, 2)) := by
  decide +kernel

/-- The first step after reset runs the placed word: V-RES-1 as a command word, V-BUS-2 as a bus row. -/
theorem test_withFetchWord :
    (afterStep (State.reset.withFetchWord 32 0x40000000) report) = some (4, 0) ∧
    (afterStep (State.reset.withFetchWord 24 0x00008) fun t => t.bus) = some (.data 0x00DBC0C0) := by decide +kernel

/-- R270: the reset event drops a pending event and keeps the history. -/
theorem test_reset_event :
    (afterStep (does { packetPending with history := [.packet 0 [0xC0, 0x01]] } .reset) fun t =>
      (report t, t.rb, t.history)) = some ((0, 0), [], [.packet 0 [0xC0, 0x01]]) := by decide +kernel

/-! ### Witnesses: states that meet the hypotheses of the obligations -/

/-- A check that implies the invariant, but for the derived decode map, for buffers of 0 or 256 bytes. -/
def checkInv (s : State) : Bool :=
  decide s.params.wf && decide (s.length ≤ s.capacity) && decide (s.capacity ≤ s.params.rbMax) &&
  decide (s.capacity = 0 ∨ s.capacity = 256) && decide (s.rb.length = s.length) &&
  decide (s.cfgd = false → s.fsm = .idle ∧ s.length = 0 ∧ s.capacity = 0 ∧ s.halt = false ∧ s.pend = .none) &&
  decide (s.halt = true → s.pend = .none) &&
  (match s.pend with
    | .none => true
    | .pkt => decide (s.fsm = .idle)
    | .rst _ => decide (s.fsm = .idle ∧ s.length = 0 ∧ s.ctrl.rstEn = true)
    | .alloc _ k =>
      decide (s.length = s.capacity ∧ s.allocSize.toNat = (if s.capacity = 0 then 256 else 2 * s.capacity) ∧
        s.allocSize.toNat ≤ s.params.rbMax ∧ s.fsm = match k with | .data => .inFrame | .unesc => .escaping)) &&
  decide (s.cfgd = true → s.ctrl.pktEn = true ∧ s.ctrl.allocEn = true ∧ s.delim.escByte ≠ s.delim.startByte ∧
    s.delim.escByte ≠ s.delim.endByte) &&
  decide s.ep.wf && decide (∀ c ∈ s.ep, c.1 < s.params.epSize) && decide s.eo.wf &&
  decide (∀ c ∈ s.eo, c.1 < s.params.eoSize)

/-- The count that a decode call returns, and how many entries the history then has. -/
def counts (o : Host.Outcome (Nat × State) Fault Refusal) : Option (Nat × Nat) :=
  match o with
  | .next (n, t) => some (n, t.history.length)
  | _ => none

theorem inv_of_check {s : State} (h : checkInv s = true) (hd : s.dm = deriveDm s.em) : BlockInv s := by
  simp only [checkInv, Bool.and_eq_true, decide_eq_true_eq] at h
  obtain ⟨⟨⟨⟨⟨⟨⟨⟨⟨⟨⟨⟨h1, h2⟩, h3⟩, h4⟩, h5⟩, h6⟩, h7⟩, h8⟩, h9⟩, h10⟩, h11⟩, h12⟩, h13⟩ := h
  refine ⟨h1, h2, h3, h4.imp_right fun e => ⟨0, e⟩, h5, h6, h7, ?_, ?_, ?_, ?_, ?_, ?_, h10, h11, h12, h13⟩
  · intro x k e
    rw [e] at h8
    simp only [decide_eq_true_eq] at h8
    exact ⟨h8.1, h8.2.1, h8.2.2.1⟩
  · intro x k e
    rw [e] at h8
    simp only [decide_eq_true_eq] at h8
    exact h8.2.2.2
  · intro e
    rw [e] at h8
    simpa using h8
  · intro k e
    rw [e] at h8
    simp only [decide_eq_true_eq] at h8
    exact ⟨h8.1, h8.2.1⟩
  · intro k e
    rw [e] at h8
    simp only [decide_eq_true_eq] at h8
    exact h8.2.2
  · intro e
    obtain ⟨c1, c2, c3, c4⟩ := h9 e
    exact ⟨c1, c2, c3, c4, hd⟩

theorem not_resets {s : State} {t : Transaction} {rest : List HostInput} (h : s.script = .bus t :: rest) : ¬ Resets s := by
  rintro ⟨r, e⟩
  rw [h] at e
  cases e

theorem witness_inv_idle : BlockInv cfgA := inv_of_check (by decide +kernel) test_derive_A.symm
theorem witness_inv_full : BlockInv full := inv_of_check (by decide +kernel) test_derive_A.symm
theorem witness_inv_packet : BlockInv packetPending := inv_of_check (by decide +kernel) test_derive_A.symm
theorem witness_inv_restart : BlockInv restartPending := inv_of_check (by decide +kernel) test_derive_B.symm
theorem witness_inv_alloc : BlockInv allocPending := inv_of_check (by decide +kernel) test_derive_A.symm
theorem witness_inv_escaping_alloc :
    BlockInv { escaping cfgA (List.replicate 256 0x41) with pend := .alloc 0xC0 .unesc, allocSize := 512 } :=
  inv_of_check (by decide +kernel) test_derive_A.symm

theorem witness_EncodedInstructionDecodesBack :
    (Instr.wr32Ro 0x00000 0).wf = true ∧ (Instr.wr32Ro 0x3FFFF 0xFFFFFFFF).wf = true ∧ (Instr.encode 0x3FFF 0x3FFF).wf = true := by
  decide

theorem witness_DecodedCodeIsItsEncoding :
    decode (.command 0x6FFFFFFF) = .ok (.encode 0x3FFF 0x3FFF) ∧ decode (.bus (.write 0x007FC 1)) = .ok (.wr32Ent 0xFF 1) := by
  decide

theorem witness_StepRunsTheDecodedInstruction :
    ((does cfgA (.bus (.read 0x00014))).script = .bus (.read 0x00014) :: [] ∧
      decode (.bus (.read 0x00014)) = .ok (.rd32 0x00014)) ∧
    State.reset.script = [] ∧
    (decodeTableWord 32 0x40000000 = some .resume ∧ State.reset.pend = .none) ∧
    (decodeTableWord 24 0x00014 = some (.rd32 0x00014) ∧ packetPending.pend ≠ .none) := by decide +kernel

theorem witness_CmdWriteRunsTheCommand :
    packetPending.pend ≠ .none ∧
    (loaded.pend = .none ∧ decodeCommand 0x60008010 = .ok (.encode 2 16) ∧ ∀ j < 2, ∃ b, loaded.ep.read j = some b) := by
  refine ⟨by decide, rfl, by decide, ?_⟩
  intro j hj
  have : j = 0 ∨ j = 1 := by omega
  rcases this with rfl | rfl
  · exact ⟨0xC0, by decide⟩
  · exact ⟨0x01, by decide⟩

theorem witness_IllegalCommandWordChangesOnlyResult :
    packetPending.pend ≠ .none ∧ cfgA.pend = .none ∧ IllegalWord 0x00000000 ∧ IllegalWord 0x70000000 ∧ IllegalWord 0xFFFFFFFF ∧
    IllegalWord 0x10000001 ∧ IllegalWord 0x28000000 ∧ IllegalWord 0x30000100 ∧ IllegalWord 0x48000000 ∧
    IllegalWord 0x50000010 := by
  unfold IllegalWord
  refine ⟨?_, ?_, ?_, ?_, ?_, ?_, ?_, ?_, ?_, ?_⟩ <;> decide

theorem witness_HostResetLeavesTheResetValues : (does packetPending .reset).script = .reset :: [] := rfl

theorem witness_InvariantHoldsAtReset :
    Params.wf { Params.default with epSize := 1, eoSize := 2 } ∧
    Params.wf { Params.default with epSize := 16384, eoSize := 16384, rbMaxExp := 23 } := by decide

theorem witness_StepKeepsTheInvariant :
    BlockInv (does allocPending (.bus (.write 0x0002C 2))) ∧
    ∃ t, step (does allocPending (.bus (.write 0x0002C 2))) = .next t ∧ t.capacity = 256 :=
  ⟨inv_of_check (by decide +kernel) test_derive_A.symm, of_afterStep (by decide +kernel)⟩

theorem witness_OnlyEncodeOfUnwrittenCellStops :
    (match step (does cfgA (.bus (.write 0x00010 0x60004010))) with | .fault .encodeUnwrittenCell => true | _ => false) = true ∧
    (∃ t, step (does cfgA (.bus (.write 0x00010 0x60000002))) = .next t ∧ resultWord t.result = 0x200) :=
  ⟨by decide +kernel, of_afterStep (by decide +kernel)⟩

/-- One transaction for each cause (a) to (h), and one answered OK at the same boundary. -/
theorem witness_BusErrorExactlyOnItsCauses :
    BlockInv packetPending ∧
    (∃ t, exec (decodeTransaction (.read 0x00040)) packetPending = .next t ∧ t.bus = .buserr) ∧
    (∃ t, exec (decodeTransaction (.read 0x00010)) packetPending = .next t ∧ t.bus = .buserr) ∧
    (∃ t, exec (decodeTransaction (.read 0x0002C)) packetPending = .next t ∧ t.bus = .buserr) ∧
    (∃ t, exec (decodeTransaction (.read 0x0003C)) { packetPending with rbIdx := 2 } = .next t ∧ t.bus = .buserr) ∧
    (∃ t, exec (decodeTransaction (.read 0x0003C)) { packetPending with rbIdx := 1 } = .next t ∧ t.bus = .data 1) ∧
    (∃ t, exec (decodeTransaction (.write 0x0003C 0)) packetPending = .next t ∧ t.bus = .buserr) ∧
    (∃ t, exec (decodeTransaction (.write 0x007FC 0)) packetPending = .next t ∧ t.bus = .buserr) ∧
    (∃ t, exec (decodeTransaction (.write 0x00010 0x30000001)) packetPending = .next t ∧ t.bus = .buserr) ∧
    (∃ t, exec (decodeTransaction (.write 0x0002C 2)) packetPending = .next t ∧ t.bus = .buserr) ∧
    (∃ t, exec (decodeTransaction (.write 0x0002C 1)) packetPending = .next t ∧ t.bus = .ok) :=
  ⟨witness_inv_packet, of_afterExec (by decide +kernel), of_afterExec (by decide +kernel), of_afterExec (by decide +kernel),
    of_afterExec (by decide +kernel), of_afterExec (by decide +kernel), of_afterExec (by decide +kernel),
    of_afterExec (by decide +kernel), of_afterExec (by decide +kernel), of_afterExec (by decide +kernel),
    of_afterExec (by decide +kernel)⟩

theorem witness_BusErrorChangesNothing :
    ∃ t, exec (decodeTransaction (.write 0x00008 0)) cfgA = .next t ∧ t.bus = .buserr := of_afterExec (by decide +kernel)

theorem witness_ConfigurationIsLockedInAContext :
    (does cfgA (.bus (.write 0x00008 0x00100302))).cfgd = true ∧ ¬ Resets (does cfgA (.bus (.write 0x00008 0x00100302))) ∧
    ∃ t, step (does cfgA (.bus (.write 0x00008 0x00100302))) = .next t ∧ t.bus = .buserr :=
  ⟨rfl, not_resets rfl, of_afterStep (by decide +kernel)⟩

theorem witness_OnlyInitAndResetWriteTheDecodeMap :
    (∃ t, step (does setupB (.bus (.write 0x00010 0x10000000))) = .next t ∧ t.dm ≠ setupB.dm) ∧
    (∃ t, step (does cfgA .reset) = .next t ∧ t.dm ≠ cfgA.dm) := by
  constructor
  · refine ⟨replyOk (initContext { setupB with script := [] }), rfl, fun h => ?_⟩
    rcases initContext_cases { setupB with script := [] } with ⟨e, _⟩ | ⟨_, e, _⟩ | ⟨_, _, e⟩
    · exact absurd e (by decide)
    · exact absurd e (by decide +kernel)
    · rw [e] at h
      have h' : deriveDm emB = Vector.replicate 256 0x00#8 := h
      have := congrArg (tableGet · 0x82) h'
      simp only [test_derive_B, dmB_get, tableGet_replicate] at this
      exact absurd this (by decide)
  · refine ⟨_, rfl, fun h => ?_⟩
    have h' : Vector.replicate 256 0x00#8 = dmA := h
    have := congrArg (tableGet · 0xDC) h'
    simp only [dmA_get, tableGet_replicate] at this
    exact absurd this (by decide)

theorem witness_OnlyRecoveryClearsHalt :
    BlockInv (does halted (.bus (.write 0x00010 0x40000000))) ∧ halted.halt = true ∧
    (∃ t, step (does halted (.bus (.write 0x00010 0x40000000))) = .next t ∧ t.halt = false) ∧
    (∃ t, step (does halted (.bus (.write 0x00010 0x50000000))) = .next t ∧ t.halt = false) ∧
    (∃ t, step (does halted (.bus (.write 0x00010 0x20000000))) = .next t ∧ t.halt = false) ∧
    (∃ t, step (does halted .reset) = .next t ∧ t.halt = false) :=
  ⟨inv_of_check (by decide +kernel) test_derive_A.symm, rfl, of_afterStep (by decide +kernel), of_afterStep (by decide +kernel),
    of_afterStep (by decide +kernel), of_afterStep (by decide +kernel)⟩

theorem witness_OnlyInitAndDeinitMoveTheContext :
    (setupB.cfgd = false ∧ ∃ t, step (does setupB (.bus (.write 0x00010 0x10000000))) = .next t ∧ t.cfgd = true) ∧
    (cfgA.cfgd = true ∧ ∃ t, step (does cfgA (.bus (.write 0x00010 0x20000000))) = .next t ∧ t.cfgd = false) ∧
    (∃ t, step (does cfgA .reset) = .next t ∧ t.cfgd = false) :=
  ⟨⟨rfl, of_afterStep (by decide +kernel)⟩, ⟨rfl, of_afterStep (by decide +kernel)⟩, of_afterStep (by decide +kernel)⟩

theorem witness_PendingEventWaitsForItsAnswer :
    packetPending.pend ≠ .none ∧ ¬ Resets (does packetPending (.bus (.write 0x00010 0x30000001))) ∧
    ¬ WritesTo (does packetPending (.bus (.write 0x00010 0x30000001))) 0x0002C ∧
    ∃ t, step (does packetPending (.bus (.write 0x00010 0x30000001))) = .next t ∧ t.bus = .buserr := by
  refine ⟨by decide, not_resets rfl, ?_, of_afterStep (by decide +kernel)⟩
  rintro ⟨d, rest, h⟩
  revert h
  simp [does]

theorem witness_CapacityGrowsOnlyByGrant :
    BlockInv (does allocPending (.bus (.write 0x0002C 2))) ∧ allocPending.capacity = 0 ∧
    (∃ t, step (does allocPending (.bus (.write 0x0002C 2))) = .next t ∧ t.capacity = 256) ∧
    BlockInv (does full (.bus (.write 0x00010 0x20000000))) ∧ full.capacity = 256 ∧
    (∃ t, step (does full (.bus (.write 0x00010 0x20000000))) = .next t ∧ t.capacity = 0) :=
  ⟨inv_of_check (by decide +kernel) test_derive_A.symm, rfl, of_afterStep (by decide +kernel), inv_of_check (by decide +kernel) test_derive_A.symm, rfl,
    of_afterStep (by decide +kernel)⟩

theorem witness_HostRegistersChangeOnlyByTheHost :
    ¬ Resets (does loaded (.bus (.write 0x00038 5))) ∧
    (∃ t, step (does loaded (.bus (.write 0x00038 5))) = .next t ∧ t.rbIdx = 5) ∧
    (∃ t, step (does State.reset (.bus (.write 0x0000C 7))) = .next t ∧ t.user = 7) ∧
    (∃ t, step (does loaded (.bus (.write 0x13FFC 7))) = .next t ∧ t.ep = [(0, 0xC0), (1, 0x01), (4095, 7)]) ∧
    (∃ t, step (does loaded (.bus (.write 0x28004 7))) = .next t ∧ t.eo = [(8193, 7)]) ∧
    (∃ t, step (does loaded (.bus (.write 0x00010 0x60000002))) = .next t ∧ t.eo = [(0, 0xC0), (1, 0xC0)]) :=
  ⟨not_resets rfl, of_afterStep (by decide +kernel), of_afterStep (by decide +kernel), of_afterStep (by decide +kernel),
    of_afterStep (by decide +kernel), of_afterStep (by decide +kernel)⟩

theorem witness_IdentificationIsConstant :
    State.reset.params.wf ∧ full.params.wf ∧ (∃ t, step (does full .reset) = .next t ∧ t.params.rbMaxExp = full.params.rbMaxExp) :=
  ⟨by decide, by decide, of_afterStep (by decide +kernel)⟩

theorem witness_OnePacketPerClosedFrame :
    (inFrame cfgA []).pend = .none ∧ (inFrame cfgA []).cfgd = true ∧ (inFrame cfgA []).halt = false ∧
    (inFrame cfgA []).fsm = .inFrame ∧ (0xC0 : Byte) = (inFrame cfgA []).delim.endByte ∧ cfgA.pend = .none ∧
    cfgA.fsm ≠ .inFrame := by decide +kernel

theorem witness_EncoderIgnoresTheDecoder :
    ∃ s', exec (.encode 2 16) loaded = .next s' ∧ s'.fsm ≠ (inFrame loaded [1, 2]).fsm := by
  obtain ⟨t, h, e⟩ := of_afterExec (i := .encode 2 16) (s := loaded) (f := fun t => t.fsm) (v := .idle) (by decide +kernel)
  have hf : (inFrame loaded [1, 2]).fsm = .inFrame := rfl
  exact ⟨t, h, by rw [hf, e]; decide⟩

theorem witness_DecoderRegistersReadTheirValues : BlockInv full ∧ full.length = 256 ∧ full.capacity = 256 :=
  ⟨witness_inv_full, by decide +kernel, by decide +kernel⟩

theorem witness_RbDataReadsTheBuffer :
    BlockInv { packetPending with rbIdx := 1 } ∧ (1 : Word).toNat < packetPending.rb.length ∧
    BlockInv { packetPending with rbIdx := 2 } ∧ packetPending.length ≤ (2 : Word).toNat :=
  ⟨inv_of_check (by decide +kernel) test_derive_A.symm, by decide, inv_of_check (by decide +kernel) test_derive_A.symm, by decide⟩

theorem witness_UnmappedAccessIsRefused :
    Params.default.wf ∧ ¬ Mapped Params.default 0x00001 ∧ ¬ Mapped Params.default 0x00040 ∧
    ¬ Mapped Params.default 0x003FC ∧ ¬ Mapped Params.default 0x00C00 ∧ ¬ Mapped Params.default 0x0FFFC ∧
    ¬ Mapped Params.default 0x14000 ∧ ¬ Mapped Params.default 0x28008 ∧ ¬ Mapped Params.default 0x30000 ∧
    Mapped Params.default 0x0003C ∧ Mapped Params.default 0x13FFC ∧ Mapped Params.default 0x28004 := by
  unfold Mapped
  refine ⟨?_, ?_, ?_, ?_, ?_, ?_, ?_, ?_, ?_, ?_, ?_, ?_⟩ <;> decide

theorem witness_ConfigurationWritesStoreOrAreLocked : State.reset.cfgd = false ∧ cfgA.cfgd = true := by decide

theorem witness_EpWindowHoldsBytes :
    Params.default.wf ∧ (4095#14).toNat < Params.default.epSize ∧ Params.default.epSize ≤ (4096#14).toNat ∧
    loaded.ep.read (1#14).toNat = some 0x01 ∧ loaded.ep.read (2#14).toNat = none := by decide

theorem witness_EoWindowHoldsBytes :
    Params.default.wf ∧ (8193#14).toNat < Params.default.eoSize ∧ Params.default.eoSize ≤ (8194#14).toNat ∧
    Memory.read [(4, 0xC0)] (4#14).toNat = some 0xC0 ∧ cfgA.eo.read (0#14).toNat = none := by decide

theorem witness_ReadOnlyWritesAndWriteOnlyReadsAreRefused :
    (Instr.wr32Ro 0x00014 0).wf = true ∧ (Instr.wr32Ro 0x00001 0).wf = true ∧ (Instr.wr32Ro 0x30000 0).wf = true ∧
    ReadOnly 0x00000 ∧ ReadOnly 0x00014 ∧ ReadOnly 0x00028 ∧ ReadOnly 0x00030 ∧ ReadOnly 0x00034 ∧ ReadOnly 0x0003C ∧
    ReadOnly 0x00800 ∧ ReadOnly 0x00BFC ∧ ¬ ReadOnly 0x00010 ∧ ¬ ReadOnly 0x0002C ∧ ¬ ReadOnly 0x00C00 := by
  unfold ReadOnly
  refine ⟨rfl, rfl, rfl, ?_, ?_, ?_, ?_, ?_, ?_, ?_, ?_, ?_, ?_, ?_⟩ <;> decide

theorem witness_AckEndsPacketAndRestart :
    (1 : Word).extractLsb' 0 2 = 1#2 ∧ (0xFFFFFFFD : Word).extractLsb' 0 2 = 1#2 ∧ packetPending.pend = .pkt ∧
    restartPending.pend = .rst .dup ∧ ({ restartPending with pend := .rst .badEsc } : State).pend = .rst .badEsc := by
  decide

theorem witness_GrantAppendsTheByte :
    (2 : Word).extractLsb' 0 2 = 2#2 ∧ allocPending.pend = .alloc 0x01 .data ∧
    ({ allocPending with pend := .alloc 0xC0 .unesc } : State).pend = .alloc 0xC0 .unesc := by decide

theorem witness_DenyHaltsWithoutConsuming :
    (3 : Word).extractLsb' 0 2 = 3#2 ∧ allocPending.pend = .alloc 0x01 .data := by decide

theorem witness_OtherAnswersDoNothing :
    (4 : Word).extractLsb' 0 2 = 0#2 ∧ ¬ AnswerFits 1 cfgA.pend ∧ ¬ AnswerFits 2 packetPending.pend ∧
    ¬ AnswerFits 3 restartPending.pend ∧ ¬ AnswerFits 1 allocPending.pend := by
  refine ⟨by decide, ?_, ?_, ?_, ?_⟩ <;> simp [AnswerFits, cfgA, setupA, State.reset, State.resetWith, packetPending, restartPending,
    allocPending]

theorem witness_InitConstructsTheContext :
    (setupB.cfgd = false ∧ NoConfigError setupB) ∧ (State.reset.cfgd = false ∧ ¬ NoConfigError State.reset) ∧
    cfgA.cfgd = true ∧
    ((0x10000001 : Word).extractLsb' 28 4 = 1#4 ∧ (0x10000001 : Word).extractLsb' 0 28 ≠ 0#28 ∧ State.reset.pend = .none) := by
  refine ⟨⟨rfl, by decide, by decide, rfl, rfl, fun h => ?_⟩, ⟨rfl, fun h => ?_⟩, rfl, by decide, by decide, rfl⟩
  · cases h
  · exact absurd h.2.2.1 (by decide)

/-- CFG-B's map passes the check of P_CHECK_INJ = 1; CFG-C's, with EM[02] = EM[03], does not. -/
theorem witness_InitConstructsTheContext_injective :
    NoConfigError { setupB with params := { Params.default with checkInj := true } } ∧
    ¬ NoConfigError { setupB with params := { Params.default with checkInj := true }, em := tableSet emB 0x03 0x82 } := by
  constructor
  · refine ⟨by decide, by decide, rfl, rfl, fun _ v w hvw hv hw => ?_⟩
    replace hv : tableGet actB v = true := hv
    replace hw : tableGet actB w = true := hw
    show tableGet emB v ≠ tableGet emB w
    rw [actB_get, decide_eq_true_eq] at hv hw
    rcases hv with rfl | rfl | rfl <;> rcases hw with rfl | rfl | rfl <;> first | exact absurd rfl hvw | (simp only [emB_get]; decide)
  · intro h
    refine h.2.2.2.2 rfl 0x02 0x03 (by decide) ?_ ?_ ?_
    · show tableGet actB 0x02 = true
      rw [actB_get]; decide
    · show tableGet actB 0x03 = true
      rw [actB_get]; decide
    · show tableGet (tableSet emB 0x03 0x82) 0x02 = tableGet (tableSet emB 0x03 0x82) 0x03
      rw [tableGet_tableSet, tableGet_tableSet, emB_get]; decide

theorem witness_DecodeMapInvertsUncollidedSubstitutes :
    setupB.cfgd = false ∧ ∃ t, exec .init setupB = .next t ∧ t.cfgd = true :=
  ⟨rfl, of_afterExec (by decide +kernel)⟩

theorem witness_DeinitEndsTheContext : packetPending.cfgd = true ∧ State.reset.cfgd = false := by decide

theorem witness_WrongLifecycleStateChangesOnlyResult :
    (cfgA.cfgd = true ∧ Instr.init = .init) ∧ (State.reset.cfgd = false ∧ ∃ n c, Instr.encode 0 2 = .encode n c) :=
  ⟨⟨rfl, rfl⟩, rfl, 0, 2, rfl⟩

theorem witness_DecbInIdle :
    cfgB.cfgd = true ∧ cfgB.halt = false ∧ cfgB.fsm = .idle ∧ (0x02 : Byte) = cfgB.delim.startByte ∧
    (0x03 : Byte) ≠ cfgB.delim.startByte := by decide +kernel

theorem witness_DecbEndPostsThePacket :
    (inFrame cfgA []).cfgd = true ∧ (inFrame cfgA []).halt = false ∧ (inFrame cfgA []).fsm = .inFrame ∧
    (0xC0 : Byte) = (inFrame cfgA []).delim.endByte := by decide +kernel

theorem witness_DecbAnomalyRestarts :
    ((inFrame cfgB [1]).cfgd = true ∧ (inFrame cfgB [1]).halt = false ∧ (inFrame cfgB [1]).fsm = .inFrame ∧
      (0x02 : Byte) = (inFrame cfgB [1]).delim.startByte ∧ (0x02 : Byte) ≠ (inFrame cfgB [1]).delim.endByte ∧
      (inFrame cfgB [1]).ctrl.rstEn = true) ∧
    ((escaping cfgA [1]).cfgd = true ∧ (escaping cfgA [1]).halt = false ∧ (escaping cfgA [1]).fsm = .escaping ∧
      tableGet (escaping cfgA [1]).act (tableGet (escaping cfgA [1]).dm 0x00) = false ∧
      (escaping cfgA [1]).ctrl.rstEn = false) := by decide +kernel

theorem witness_DecbEscBeginsAnEscape :
    (inFrame cfgA []).cfgd = true ∧ (inFrame cfgA []).halt = false ∧ (inFrame cfgA []).fsm = .inFrame ∧
    (0xDB : Byte) = (inFrame cfgA []).delim.escByte ∧ (0xDB : Byte) ≠ (inFrame cfgA []).delim.endByte ∧
    (0xDB : Byte) ≠ (inFrame cfgA []).delim.startByte := by decide +kernel

/-- Room in the buffer; a request of 256 and of 512 bytes; and a request beyond P_RB_MAX. -/
theorem witness_DecbAppendsOrGrows :
    (cfgB.cfgd = true ∧ cfgB.halt = false ∧ (0xC0 : Byte) ≠ cfgB.delim.endByte ∧ (0xC0 : Byte) ≠ cfgB.delim.startByte ∧
      (0xC0 : Byte) ≠ cfgB.delim.escByte ∧ (inFrame cfgB (List.replicate 255 0)).length < 256) ∧
    ((escaping cfgA []).fsm = .escaping ∧ tableGet (escaping cfgA []).dm 0xDC = 0xC0 ∧
      tableGet (escaping cfgA []).act 0xC0 = true) ∧
    (cfgB.length = cfgB.capacity ∧ 256 ≤ cfgB.params.rbMax) ∧
    ((inFrame cfgB (List.replicate 256 0)).length = 256 ∧ 2 * 256 ≤ cfgB.params.rbMax) ∧
    (full.length = full.capacity ∧ full.params.rbMax < 2 * full.capacity) := by decide +kernel

theorem witness_DecbWhileHaltedConsumesNothing : halted.cfgd = true ∧ halted.halt = true := by decide

/-- A data byte, and in Escaping the substitute of an active byte. -/
theorem witness_FullBufferNeverTakesAByte :
    (BlockInv full ∧ full.cfgd = true ∧ full.halt = false ∧ full.length = full.params.rbMax ∧ full.fsm = .inFrame ∧
      (0x01 : Byte) ≠ full.delim.endByte ∧ (0x01 : Byte) ≠ full.delim.startByte ∧ (0x01 : Byte) ≠ full.delim.escByte) ∧
    (BlockInv { full with fsm := .escaping } ∧ tableGet full.act (tableGet full.dm 0xDC) = true) :=
  ⟨⟨witness_inv_full, by decide +kernel⟩, inv_of_check (by decide +kernel) test_derive_A.symm, by decide +kernel⟩

theorem witness_ResumeKeepsTheFrame :
    halted.cfgd = true ∧ State.reset.cfgd = false ∧
    ((0x48000000 : Word).extractLsb' 28 4 = 4#4 ∧ (0x48000000 : Word).extractLsb' 0 28 ≠ 0#28 ∧ halted.pend = .none) := by
  decide

theorem witness_RestartDropsTheFrame :
    halted.cfgd = true ∧ State.reset.cfgd = false ∧
    ((0x50000010 : Word).extractLsb' 28 4 = 5#4 ∧ (0x50000010 : Word).extractLsb' 0 28 ≠ 0#28 ∧ halted.pend = .none) := by
  decide

/-- Beyond each memory's size; at each size; an unwritten cell; and C one below N and at N. -/
theorem witness_EncodeStuffsThePayload :
    State.reset.cfgd = false ∧ loaded.cfgd = true ∧ loaded.params.epSize < (4097#14).toNat ∧ loaded.params.eoSize < (8195#14).toNat ∧
    (4096#14).toNat ≤ loaded.params.epSize ∧ (8194#14).toNat ≤ loaded.params.eoSize ∧
    (∃ j < (3#14).toNat, loaded.ep.read j = none) ∧ PayloadAt loaded.ep (2#14).toNat [0xC0, 0x01] ∧
    2 + 2 + [0xC0, 0x01].countP (fun b => tableGet loaded.act b) = (5#14).toNat ∧ (4#14).toNat < 5 := by
  refine ⟨rfl, rfl, by decide, by decide, by decide, by decide, ⟨2, by decide, by decide⟩, ⟨rfl, ?_⟩, by decide +kernel, by decide⟩
  intro j hj
  have : j = 0 ∨ j = 1 := by
    have : j < 2 := hj
    omega
  rcases this with rfl | rfl <;> decide

/-- CFG-B satisfies WF+. -/
theorem witness_wellFormedB : WellFormedPlus cfgB.delim cfgB.act cfgB.em := by
  show WellFormedPlus { startByte := 0x02, endByte := 0x03, escByte := 0x10 } actB emB
  refine ⟨⟨by decide, by decide, by rw [actB_get]; decide, by rw [actB_get]; decide, by rw [actB_get]; decide, ?_⟩, ?_⟩ <;>
    rw [test_derive_B]
  · intro v hv
    rw [actB_get, decide_eq_true_eq] at hv
    rcases hv with rfl | rfl | rfl <;> simp only [emB_get, dmB_get] <;> decide
  · intro c h
    have h1 := h 0x02 (by rw [actB_get]; decide)
    have h2 := h 0x03 (by rw [actB_get]; decide)
    have h3 := h 0x10 (by rw [actB_get]; decide)
    rw [emB_get] at h1 h2 h3
    simp only [dmB_get, actB_get]
    split_ifs <;> simp_all

/-- CFG-A satisfies WF. -/
theorem witness_wellFormedA : WellFormedConfig cfgA.delim cfgA.act cfgA.em := by
  show WellFormedConfig { startByte := 0xC0, endByte := 0xC0, escByte := 0xDB } actA emA
  refine ⟨by decide, by decide, by rw [actA_get]; decide, by rw [actA_get]; decide, by rw [actA_get]; decide, ?_⟩
  rw [test_derive_A]
  intro v hv
  rw [actA_get, decide_eq_true_eq] at hv
  rcases hv with rfl | rfl <;> simp only [emA_get, dmA_get] <;> decide

/-- R168, R172, C0 01 02 with every request denied: START is consumed, 01 is not, in one call and in two. -/
theorem witness_ChunkingDoesNotMatter :
    cfgA.pend = .none ∧
    counts (decodeCall (fun _ => false) [0xC0, 0x01, 0x02] cfgA) = some (1, 2) ∧
    counts (decodeCalls (fun _ => false) [[0xC0], [0x01, 0x02]] cfgA) = some (1, 2) ∧
    counts (decodeCall (fun _ => true) [0xC0, 0x01, 0xC0] cfgA) = some (3, 3) := by decide +kernel

theorem witness_DecodingAnEncodedPayloadReturnsIt :
    BlockInv cfgB ∧ WellFormedConfig cfgB.delim cfgB.act cfgB.em ∧ cfgB.cfgd = true ∧ cfgB.fsm = .idle ∧
    cfgB.halt = false ∧ cfgB.pend = .none ∧ [0x02#8, 0x03, 0x10, 0x41].length ≤ cfgB.params.rbMax :=
  ⟨inv_of_check (by decide +kernel) test_derive_B.symm, witness_wellFormedB.toWellFormedConfig, rfl, rfl, rfl, rfl, by decide⟩

theorem witness_InvalidEscapeDropsTheFrame :
    BlockInv cfgB ∧ WellFormedPlus cfgB.delim cfgB.act cfgB.em ∧ cfgB.cfgd = true ∧ cfgB.fsm = .idle ∧
    cfgB.halt = false ∧ cfgB.pend = .none ∧ ¬ IsSubstitute cfgB.act cfgB.em 0x55 ∧
    cfgB.delim.startByte ≠ cfgB.delim.endByte := by
  refine ⟨inv_of_check (by decide +kernel) test_derive_B.symm, witness_wellFormedB, rfl, rfl, rfl, rfl, ?_, by decide⟩
  rintro ⟨v, ha, he⟩
  replace ha : tableGet actB v = true := ha
  replace he : tableGet emB v = 0x55 := he
  rw [actB_get, decide_eq_true_eq] at ha
  rcases ha with rfl | rfl | rfl <;> rw [emB_get] at he <;> exact absurd he (by decide)

/-- Both cases: START ≠ END in CFG-B, START = END in CFG-A. -/
theorem witness_MalformedFrameRecovers :
    (BlockInv cfgB ∧ WellFormedConfig cfgB.delim cfgB.act cfgB.em ∧ cfgB.cfgd = true ∧ cfgB.fsm = .idle ∧
      cfgB.halt = false ∧ cfgB.pend = .none ∧ cfgB.delim.startByte ≠ cfgB.delim.endByte) ∧
    (BlockInv cfgA ∧ WellFormedConfig cfgA.delim cfgA.act cfgA.em ∧ cfgA.cfgd = true ∧ cfgA.fsm = .idle ∧
      cfgA.halt = false ∧ cfgA.pend = .none ∧ cfgA.delim.startByte = cfgA.delim.endByte) :=
  ⟨⟨inv_of_check (by decide +kernel) test_derive_B.symm, witness_wellFormedB.toWellFormedConfig, rfl, rfl, rfl, rfl, by decide⟩,
    witness_inv_idle, witness_wellFormedA, rfl, rfl, rfl, rfl, by decide⟩

theorem witness_CapacityIsTheLeastThatHolds :
    BlockInv cfgA ∧ cfgA.cfgd = true ∧ cfgA.pend = .none ∧ cfgA.capacity = 0 ∧
    ((nextState (feedBytes [0xC0, 0x01] cfgA)).map fun t => t.capacity) = some 256 ∧
    ((nextState (feedBytes [0xC0, 0xC0] cfgA)).map fun t => t.capacity) = some 0 :=
  ⟨witness_inv_idle, rfl, rfl, rfl, by decide +kernel, by decide +kernel⟩

theorem witness_DelimitersInAFrameAreEscaped :
    WellFormedConfig cfgB.delim cfgB.act cfgB.em ∧
    frameOf cfgB [0x02, 0x03, 0x10, 0x41] = [0x02, 0x10, 0x82, 0x10, 0x83, 0x10, 0x90, 0x41, 0x03] :=
  ⟨witness_wellFormedB.toWellFormedConfig, by decide +kernel⟩

end Sys2Proof.Tests
end

section
/-! What one step can do, said once: `StepEffect` lists the effects an input can have, `step_effect` says that a step
has one of them. The invariant and the safety statements are case analyses of it. -/

namespace Sys2Proof.Machine

/-- The effects a host input can have on the state `u` that has the rest of the host's inputs. The conditions are those
under which the model takes the case; an effect of DECB is left to `decodeByte_cases`. -/
inductive StepEffect (u : State) : HostInput → State → Prop
  /-- The reset event (R270). -/
  | reset : StepEffect u .reset (hostReset u)
  /-- A read changes no state of the block (R66). -/
  | read (a : Addr) (r : BusResponse) (n : Nat) : StepEffect u (.bus (.read a)) { u with bus := r, draws := n }
  /-- A write answered BUSERR (R221). -/
  | refused (a : Addr) (d : Word) : StepEffect u (.bus (.write a d)) (respond .buserr u)
  /-- A CMD write that ends in an error which only RESULT shows (R97, R241). -/
  | rejected (d : Word) (code : ResultCode) :
      StepEffect u (.bus (.write 0x00010#18 d)) (respond .ok (finish code .none 0#24 u))
  /-- INIT constructs the context (R125). -/
  | init (d : Word) (hd : decodeCommand d = .ok .init) (hp : u.pend = .none) (hc : u.cfgd = false)
      (he : configError u = false) :
      StepEffect u (.bus (.write 0x00010#18 d))
        (respond .ok (finish .ok .none 0#24
          { u with
            dm := deriveDm u.em, fsm := .idle, length := 0, rb := [], capacity := 0, halt := false, cfgd := true }))
  /-- DEINIT tears the context down (R127). -/
  | deinit (d : Word) (hd : decodeCommand d = .ok .deinit) (hp : u.pend = .none) (hc : u.cfgd = true) :
      StepEffect u (.bus (.write 0x00010#18 d))
        (respond .ok (finish .ok .none 0#24
          { u with capacity := 0, rb := [], fsm := .idle, length := 0, halt := false, cfgd := false }))
  /-- DECB in a context that has not halted (R152). -/
  | decb (d : Word) (b : Byte) (hd : decodeCommand d = .ok (.decb b)) (hp : u.pend = .none) (hc : u.cfgd = true)
      (hh : u.halt = false) : StepEffect u (.bus (.write 0x00010#18 d)) (respond .ok (decodeByte b u))
  /-- RESUME (R170). -/
  | resume (d : Word) (hd : decodeCommand d = .ok .resume) (hp : u.pend = .none) (hc : u.cfgd = true) :
      StepEffect u (.bus (.write 0x00010#18 d)) (respond .ok (finish .ok .none 0#24 { u with halt := false }))
  /-- RESTART (R171). -/
  | restart (d : Word) (hd : decodeCommand d = .ok .restart) (hp : u.pend = .none) (hc : u.cfgd = true) :
      StepEffect u (.bus (.write 0x00010#18 d))
        (respond .ok (finish .ok .none 0#24 { u with length := 0, rb := [], fsm := .idle, halt := false }))
  /-- ENCODE writes the frame of a payload that fits (R201). -/
  | encode (d : Word) (n c : BitVec 14) (p : List Byte) (hd : decodeCommand d = .ok (.encode n c))
      (hp : u.pend = .none) (hc : u.cfgd = true) (hr : requiredLength u.act p ≤ u.params.eoSize) :
      StepEffect u (.bus (.write 0x00010#18 d))
        (respond .ok (finish .ok .none (BitVec.ofNat 24 (requiredLength u.act p))
          { u with eo := u.eo.writeFrom 0 (frameOf u p) }))
  /-- A RESP write of RSP 0 (R105). -/
  | noAnswer (d : Word) : StepEffect u (.bus (.write 0x0002C#18 d)) (respond .ok u)
  /-- ACK of a PKT event (R166). -/
  | ackPacket (d : Word) (hp : u.pend = .pkt) :
      StepEffect u (.bus (.write 0x0002C#18 d)) (respond .ok (ackPacket u))
  /-- ACK of an RST event (R169). -/
  | ackRestart (d : Word) (k : RestartKind) (hp : u.pend = .rst k) :
      StepEffect u (.bus (.write 0x0002C#18 d)) (respond .ok (ackRestart k u))
  /-- GRANT of an ALLOC event (R167). -/
  | grant (d : Word) (x : Byte) (k : AppendKind) (ha : answerOf d = .grant) (hp : u.pend = .alloc x k) :
      StepEffect u (.bus (.write 0x0002C#18 d)) (respond .ok (grantAlloc x k u))
  /-- DENY of an ALLOC event (R168). -/
  | deny (d : Word) (x : Byte) (k : AppendKind) (hp : u.pend = .alloc x k) :
      StepEffect u (.bus (.write 0x0002C#18 d)) (respond .ok (denyAlloc u))
  /-- A write of CTRL outside a context (R226). -/
  | writeCtrl (d : Word) (hc : u.cfgd = false) :
      StepEffect u (.bus (.write 0x00004#18 d)) (respond .ok { u with ctrl := ctrlOf d })
  /-- A write of DELIM outside a context (R226). -/
  | writeDelim (d : Word) (hc : u.cfgd = false) :
      StepEffect u (.bus (.write 0x00008#18 d)) (respond .ok { u with delim := delimOf d })
  /-- A write of USER outside a context (R226). -/
  | writeUser (d : Word) (hc : u.cfgd = false) :
      StepEffect u (.bus (.write 0x0000C#18 d)) (respond .ok { u with user := d })
  /-- A write of ENT[v] outside a context (R227). -/
  | writeEnt (v : Byte) (d : Word) (hc : u.cfgd = false) :
      StepEffect u (.bus (.write (entAddr v) d)) (respond .ok (writeEntry v d u))
  /-- A write of RB_IDX (R229). -/
  | writeRbIdx (d : Word) : StepEffect u (.bus (.write 0x00038#18 d)) (respond .ok { u with rbIdx := d })
  /-- A write of an EP cell (R230). -/
  | writeEp (i : BitVec 14) (d : Word) (hi : i.toNat < u.params.epSize) :
      StepEffect u (.bus (.write (epAddr i) d)) (respond .ok { u with ep := u.ep.write i.toNat (byteOf d) })
  /-- A write of an EO cell (R231). -/
  | writeEo (i : BitVec 14) (d : Word) (hi : i.toNat < u.params.eoSize) :
      StepEffect u (.bus (.write (eoAddr i) d)) (respond .ok { u with eo := u.eo.write i.toNat (byteOf d) })

/-! ### Every input has one of the effects -/

/-- A read, as its effect. -/
theorem readWord_effect (a : Addr) (u : State) : StepEffect u (.bus (.read a)) (readWord a u) := by
  unfold readWord
  split
  · exact .read a .buserr u.draws
  · next t _ =>
    obtain ⟨r, n, e⟩ := readTarget_frame t u
    rw [e]
    exact .read a r n

/-- INIT, as its effect. -/
theorem initContext_effect {d : Word} {u : State} (hd : decodeCommand d = .ok .init) (hp : u.pend = .none) :
    StepEffect u (.bus (.write 0x00010#18 d)) (respond .ok (initContext u)) := by
  rcases initContext_cases u with ⟨-, e⟩ | ⟨-, -, e⟩ | ⟨hc, he, e⟩ <;> rw [e]
  · exact .rejected d .errState
  · exact .rejected d .errConfig
  · exact .init d hd hp hc he

/-- DEINIT, as its effect. -/
theorem deinitContext_effect {d : Word} {u : State} (hd : decodeCommand d = .ok .deinit) (hp : u.pend = .none) :
    StepEffect u (.bus (.write 0x00010#18 d)) (respond .ok (deinitContext u)) := by
  rcases deinitContext_cases u with ⟨-, e⟩ | ⟨hc, e⟩ <;> rw [e]
  · exact .rejected d .errState
  · exact .deinit d hd hp hc

/-- DECB, as its effect: outside a context and after a halt it only fails (R152). -/
theorem decodeByte_effect {d : Word} {b : Byte} {u : State} (hd : decodeCommand d = .ok (.decb b))
    (hp : u.pend = .none) : StepEffect u (.bus (.write 0x00010#18 d)) (respond .ok (decodeByte b u)) := by
  cases hc : u.cfgd with
  | false =>
    have e : decodeByte b u = finish .errState .none 0#24 u := by simp [decodeByte, hc]
    rw [e]
    exact .rejected d .errState
  | true =>
    cases hh : u.halt with
    | true =>
      have e : decodeByte b u = finish .errHalted .none 0#24 u := by simp [decodeByte, hc, hh]
      rw [e]
      exact .rejected d .errHalted
    | false => exact .decb d b hd hp hc hh

/-- RESUME, as its effect. -/
theorem resumeDecoding_effect {d : Word} {u : State} (hd : decodeCommand d = .ok .resume) (hp : u.pend = .none) :
    StepEffect u (.bus (.write 0x00010#18 d)) (respond .ok (resumeDecoding u)) := by
  rcases resumeDecoding_cases u with ⟨-, e⟩ | ⟨hc, e⟩ <;> rw [e]
  · exact .rejected d .errState
  · exact .resume d hd hp hc

/-- RESTART, as its effect. -/
theorem restartDecoding_effect {d : Word} {u : State} (hd : decodeCommand d = .ok .restart) (hp : u.pend = .none) :
    StepEffect u (.bus (.write 0x00010#18 d)) (respond .ok (restartDecoding u)) := by
  rcases restartDecoding_cases u with ⟨-, e⟩ | ⟨hc, e⟩ <;> rw [e]
  · exact .rejected d .errState
  · exact .restart d hd hp hc

/-- ENCODE, as its effect where it does not fault. -/
theorem execEncode_effect {d : Word} {n c : BitVec 14} {u t : State} (hd : decodeCommand d = .ok (.encode n c))
    (hp : u.pend = .none) (h : execEncode n c u = .next t) : StepEffect u (.bus (.write 0x00010#18 d)) t := by
  rw [execEncode, replyOk_eq] at h
  rcases encodePayload_cases n.toNat c.toNat (respond .ok u) with
    ⟨-, e⟩ | ⟨-, -, e⟩ | ⟨-, -, -, -, e⟩ | ⟨p, -, -, -, -, -, e⟩ | ⟨p, hc, -, hco, -, hr, e⟩ <;> rw [e] at h <;> cases h
  · exact .rejected d .errState
  · exact .rejected d .errRange
  · exact .rejected d .errOverflow
  · exact .encode d n c p hd hp hc (Nat.le_trans hr hco)

/-- A CMD write, as its effect. -/
theorem writeCommand_effect {d : Word} {u t : State} (h : writeCommand d u = .next t) :
    StepEffect u (.bus (.write 0x00010#18 d)) t := by
  rcases writeCommand_cases d u with ⟨-, e⟩ | ⟨_, -, -, e⟩ | ⟨c, hp, hd, e⟩ <;> rw [e] at h
  · cases h; exact .refused _ d
  · cases h; exact .rejected d .errIllegal
  · cases c with
    | init => cases h; exact initContext_effect hd hp
    | deinit => cases h; exact deinitContext_effect hd hp
    | decb b => cases h; exact decodeByte_effect hd hp
    | resume => cases h; exact resumeDecoding_effect hd hp
    | restart => cases h; exact restartDecoding_effect hd hp
    | encode n c => exact execEncode_effect hd hp h

/-- A RESP write, as its effect. -/
theorem answerPending_effect (d : Word) (u : State) :
    StepEffect u (.bus (.write 0x0002C#18 d)) (answerPending (answerOf d) u) := by
  rcases answerPending_cases (answerOf d) u with
    ⟨-, e⟩ | ⟨-, hp, e⟩ | ⟨k, -, hp, e⟩ | ⟨x, k, ha, hp, e⟩ | ⟨x, k, -, hp, e⟩ | ⟨-, -, -, -, e⟩ <;> rw [e]
  · exact .noAnswer d
  · exact .ackPacket d hp
  · exact .ackRestart d k hp
  · exact .grant d x k ha hp
  · exact .deny d x k hp
  · exact .refused _ d

/-- A write of a locked register is refused, or has the effect of the write outside a context (R226). -/
theorem lockedWrite_effect {a : Addr} {d : Word} {u : State} {write : State → State}
    (h : u.cfgd = false → StepEffect u (.bus (.write a d)) (respond .ok (write u))) :
    StepEffect u (.bus (.write a d)) (lockedWrite write u) := by
  rcases lockedWrite_cases write u with ⟨-, e⟩ | ⟨hc, e⟩ <;> rw [e]
  · exact .refused a d
  · exact h hc

/-- A write, as its effect. -/
theorem decodeWrite_effect {a : Addr} {d : Word} {u t : State} (h : exec (decodeWrite a d) u = .next t) :
    StepEffect u (.bus (.write a d)) t := by
  rcases decodeWrite_cases a d with
    ⟨rfl, e⟩ | ⟨rfl, e⟩ | ⟨rfl, e⟩ | ⟨rfl, e⟩ | ⟨rfl, e⟩ | ⟨rfl, e⟩ | ⟨v, rfl, e⟩ | ⟨i, rfl, e⟩ |
    ⟨i, rfl, e⟩ | ⟨-, e⟩ <;> rw [e] at h
  · cases h; exact lockedWrite_effect (.writeCtrl d)
  · cases h; exact lockedWrite_effect (.writeDelim d)
  · cases h; exact lockedWrite_effect (.writeUser d)
  · exact writeCommand_effect h
  · cases h; exact answerPending_effect d u
  · cases h; exact .writeRbIdx d
  · cases h; exact lockedWrite_effect (.writeEnt v d)
  · rw [exec, execWr32Ep] at h
    split at h <;> cases h
    · next hi => exact .writeEp i d hi
    · exact .refused _ d
  · rw [exec, execWr32Eo] at h
    split at h <;> cases h
    · next hi => exact .writeEo i d hi
    · exact .refused _ d
  · cases h; exact .refused a d

/-- A step changes nothing, having no input, or has an effect of its input (R220, R270, R271). -/
theorem step_effect {s t : State} (h : step s = .next t) :
    (s.script = [] ∧ t = s) ∨ ∃ x rest, s.script = x :: rest ∧ StepEffect { s with script := rest } x t := by
  rcases step_cases s with ⟨hs, e⟩ | ⟨x, rest, hs, e⟩ | ⟨rest, hs, e⟩ <;> rw [e] at h
  · cases h
    exact .inl ⟨hs, rfl⟩
  · refine .inr ⟨_, rest, hs, ?_⟩
    cases x with
    | read a => cases h; exact readWord_effect a _
    | write a d => exact decodeWrite_effect h
  · cases h
    exact .inr ⟨_, rest, hs, .reset⟩

end Sys2Proof.Machine
end

section
/-! The invariant of R43: it holds at reset, and every effect of a step keeps it. The layer below says how it behaves
under the updates that the effects are made of. -/

namespace Sys2Proof.Machine

/-! ### The invariant at reset -/

/-- The reset state of a block with legal parameters meets the invariant (R43, R46). -/
theorem blockInv_resetWith {p : Params} (hp : p.wf) : BlockInv (State.resetWith p) where
  params := hp
  length_le := Nat.le_refl 0
  capacity_le := Nat.zero_le _
  capacity_form := .inl rfl
  rb_length := rfl
  unconfigured _ := ⟨rfl, rfl, rfl, rfl, rfl⟩
  halted _ := rfl
  alloc_pending _ _ h := by cases h
  alloc_fsm _ _ h := by cases h
  packet_pending h := by cases h
  restart_pending _ h := by cases h
  restart_sink _ h := by cases h
  configured h := by cases h
  ep_wf := .nil
  ep_bound _ h := by cases h
  eo_wf := .nil
  eo_bound _ h := by cases h

/-- Settles O10: the reset state meets each clause, and the default parameters are legal. -/
theorem invariantHoldsAtReset : Obligations.InvariantHoldsAtReset :=
  ⟨fun _ hp => blockInv_resetWith hp, blockInv_resetWith (by decide)⟩

/-! ### Growth requests -/

/-- The decoder state in which DECB appends: InFrame for a row 6 byte, Escaping for a row 7 byte (R160, R162). -/
def AppendKind.fsm : AppendKind → Fsm
  | .data => .inFrame
  | .unesc => .escaping

theorem rbMax_le (p : Params) : p.rbMax ≤ 2 ^ 31 := by
  calc 256 * 2 ^ p.rbMaxExp.val ≤ 256 * 2 ^ 23 :=
        Nat.mul_le_mul_left _ (Nat.pow_le_pow_right (by decide) (by omega))
    _ = 2 ^ 31 := by decide

/-- A capacity asked for within P_RB_MAX fits ALLOC_SIZE. -/
theorem toNat_ofNat_of_le_rbMax {n : Nat} {p : Params} (h : n ≤ p.rbMax) : (BitVec.ofNat 32 n).toNat = n := by
  have := rbMax_le p
  rw [BitVec.toNat_ofNat]
  omega

/-- Growth within P_RB_MAX stays among the capacities 256 * 2^k (R43(b), R164). -/
theorem nextCapacity_form {n : Nat} {p : Params} (hn : n = 0 ∨ ∃ k : Fin 24, n = 256 * 2 ^ k.val)
    (hle : nextCapacity n ≤ p.rbMax) : ∃ k : Fin 24, nextCapacity n = 256 * 2 ^ k.val := by
  rcases hn with rfl | ⟨k, rfl⟩
  · exact ⟨0, rfl⟩
  · have e : nextCapacity (256 * 2 ^ k.val) = 256 * 2 ^ (k.val + 1) := by
      rw [nextCapacity, if_neg (by positivity), pow_succ]
      omega
    rw [e] at hle ⊢
    have hk : k.val + 1 ≤ p.rbMaxExp.val :=
      (Nat.pow_le_pow_iff_right (by decide)).mp (Nat.le_of_mul_le_mul_left hle (by decide))
    exact ⟨⟨k.val + 1, by omega⟩, rfl⟩

theorem lt_nextCapacity (n : Nat) : n < nextCapacity n := by
  unfold nextCapacity Config.firstCapacity
  split <;> omega

namespace BlockInv

variable {s : State}

/-! ### Updates that the invariant does not see -/

theorem respond (h : BlockInv s) (r : BusResponse) : BlockInv (respond r s) := { h with }

theorem finish (h : BlockInv s) (c : ResultCode) (e : Evt) (v : BitVec 24) : BlockInv (finish c e v s) := { h with }

theorem record (h : BlockInv s) (e : HistoryEntry) : BlockInv (record e s) := { h with }

/-! ### Registers outside a context, memories -/

/-- Outside a context nothing is pending and nothing is derived, so the configuration is free (R226). -/
theorem configure (h : BlockInv s) (hc : s.cfgd = false) (ctrl : Ctrl) (delim : Delim) (act : Table Bool)
    (em : Table Byte) : BlockInv { s with ctrl := ctrl, delim := delim, act := act, em := em } :=
  { h with
    restart_sink := fun k hk => by
      obtain ⟨-, -, -, -, hp⟩ := h.unconfigured hc
      simp [hp] at hk
    configured := fun hc' => by simp [hc] at hc' }

theorem writeEp (h : BlockInv s) {i : Nat} (hi : i < s.params.epSize) (b : Byte) :
    BlockInv { s with ep := s.ep.write i b } :=
  { h with ep_wf := Memory.write_wf h.ep_wf i b, ep_bound := Memory.write_bound h.ep_bound hi b }

theorem writeEo (h : BlockInv s) {i : Nat} (hi : i < s.params.eoSize) (b : Byte) :
    BlockInv { s with eo := s.eo.write i b } :=
  { h with eo_wf := Memory.write_wf h.eo_wf i b, eo_bound := Memory.write_bound h.eo_bound hi b }

/-- The frame of a payload whose required length is within P_EO_SIZE stays within EO (R202, R203). -/
theorem writeFrame (h : BlockInv s) {p : List Byte} (hr : requiredLength s.act p ≤ s.params.eoSize) :
    BlockInv { s with eo := s.eo.writeFrom 0 (frameOf s p) } :=
  { h with
    eo_wf := Memory.writeFrom_wf h.eo_wf 0 _
    eo_bound := Memory.writeFrom_bound h.eo_bound 0 _ (by rw [length_frameOf]; omega) }

/-! ### The decoder's registers -/

/-- A pending event shows that a context exists (R43(d)). -/
theorem cfgd_of_pend (h : BlockInv s) (hp : s.pend ≠ .none) : s.cfgd = true := by
  by_contra hc
  obtain ⟨-, -, -, -, hn⟩ := h.unconfigured (by simpa using hc)
  exact hp hn

/-- A halt shows that a context exists (R43(d)). -/
theorem cfgd_of_halt (h : BlockInv s) (hh : s.halt = true) : s.cfgd = true := by
  by_contra hc
  obtain ⟨-, -, -, hn, -⟩ := h.unconfigured (by simpa using hc)
  simp [hn] at hh

/-- In a context with nothing pending, FSM and HALT are free, and so are received bytes that fit CAPACITY. -/
theorem setDecoder (h : BlockInv s) (hc : s.cfgd = true) (hp : s.pend = .none) (f : Fsm) (b : Bool) {n : Nat}
    {rb : List Byte} (hn : n ≤ s.capacity) (hrb : rb.length = n) :
    BlockInv { s with fsm := f, halt := b, length := n, rb := rb } :=
  { h with
    length_le := hn
    rb_length := hrb
    unconfigured := fun hc' => by simp [hc] at hc'
    halted := fun _ => hp
    alloc_pending := fun _ _ hk => by simp [hp] at hk
    alloc_fsm := fun _ _ hk => by simp [hp] at hk
    packet_pending := fun hk => by simp [hp] at hk
    restart_pending := fun _ hk => by simp [hp] at hk }

/-- A context with nothing in it, or none at all: what INIT and DEINIT leave (R125, R127). -/
theorem emptyContext (h : BlockInv s) (hp : s.pend = .none) (b : Bool) (dm : Table Byte)
    (hb : b = true → configError s = false ∧ dm = deriveDm s.em) :
    BlockInv { s with dm := dm, fsm := .idle, length := 0, rb := [], capacity := 0, halt := false, cfgd := b } :=
  { h with
    length_le := Nat.le_refl 0
    capacity_le := Nat.zero_le _
    capacity_form := .inl rfl
    rb_length := rfl
    unconfigured := fun _ => ⟨rfl, rfl, rfl, rfl, hp⟩
    halted := fun _ => hp
    alloc_pending := fun _ _ hk => by simp [hp] at hk
    alloc_fsm := fun _ _ hk => by simp [hp] at hk
    packet_pending := fun hk => by simp [hp] at hk
    restart_pending := fun _ hk => by simp [hp] at hk
    configured := fun hb' => by
      obtain ⟨he, hdm⟩ := hb hb'
      obtain ⟨hstart, hend, hpkt, halloc, -⟩ := (configError_eq_false_iff s).mp he
      exact ⟨hpkt, halloc, hstart, hend, hdm⟩ }

/-- In a context with nothing pending, CAPACITY may be any of its values that holds the received bytes (R43(a), (b)). -/
theorem setCapacity (h : BlockInv s) (hc : s.cfgd = true) (hp : s.pend = .none) {n : Nat} (hn : s.length ≤ n)
    (hle : n ≤ s.params.rbMax) (hform : ∃ k : Fin 24, n = 256 * 2 ^ k.val) : BlockInv { s with capacity := n } :=
  { h with
    length_le := hn
    capacity_le := hle
    capacity_form := .inr hform
    unconfigured := fun hc' => by simp [hc] at hc'
    alloc_pending := fun _ _ hk => by simp [hp] at hk }

/-- Ending an event leaves nothing to say about it. -/
theorem clearPend (h : BlockInv s) : BlockInv { s with pend := .none } :=
  { h with
    unconfigured := fun hc => by
      obtain ⟨hf, hl, hcap, hh, -⟩ := h.unconfigured hc
      exact ⟨hf, hl, hcap, hh, rfl⟩
    halted := fun _ => rfl
    alloc_pending := fun _ _ hk => by cases hk
    alloc_fsm := fun _ _ hk => by cases hk
    packet_pending := fun hk => by cases hk
    restart_pending := fun _ hk => by cases hk
    restart_sink := fun _ hk => by cases hk }

/-- An event posted in a context that has not halted, with what the invariant says of that event (R43(e) to (g)). -/
theorem post (h : BlockInv s) (hc : s.cfgd = true) (hh : s.halt = false) (p : Pend) (size : Word)
    (halloc : ∀ x k, p = .alloc x k →
      s.length = s.capacity ∧ size.toNat = nextCapacity s.capacity ∧ size.toNat ≤ s.params.rbMax ∧
        s.fsm = k.fsm)
    (hpkt : p = .pkt → s.fsm = .idle)
    (hrst : ∀ k, p = .rst k → s.fsm = .idle ∧ s.length = 0 ∧ s.ctrl.rstEn = true) :
    BlockInv { s with allocSize := size, pend := p } :=
  { h with
    unconfigured := fun hc' => by simp [hc] at hc'
    halted := fun hh' => by simp [hh] at hh'
    alloc_pending := fun x k hk => by
      obtain ⟨hl, hs, hle, -⟩ := halloc x k hk
      exact ⟨hl, hs, hle⟩
    alloc_fsm := fun x k hk => by
      obtain ⟨-, -, -, hf⟩ := halloc x k hk
      exact hf
    packet_pending := hpkt
    restart_pending := fun k hk => by
      obtain ⟨hf, hl, -⟩ := hrst k hk
      exact ⟨hf, hl⟩
    restart_sink := fun k hk => by
      obtain ⟨-, -, he⟩ := hrst k hk
      exact he }

/-! ### The decoder's operations -/

/-- A full buffer asks for growth or halts (R164). -/
theorem growBuffer (h : BlockInv s) (hc : s.cfgd = true) (hp : s.pend = .none) (hh : s.halt = false)
    (hfull : s.length = s.capacity) (x : Byte) (k : AppendKind) (hf : s.fsm = k.fsm) :
    BlockInv (growBuffer x k s) := by
  rcases growBuffer_cases x k s with ⟨-, e⟩ | ⟨hle, e⟩ <;> rw [e]
  · exact (h.setDecoder hc hp s.fsm true h.length_le h.rb_length).finish _ _ _
  · refine (h.post hc hh (.alloc x k) _ ?_ (by simp) (by simp)).record _
    rintro _ _ ⟨⟩
    have hsize := toNat_ofNat_of_le_rbMax hle
    exact ⟨hfull, hsize, hsize.trans_le hle, hf⟩

/-- An append fits the byte in, or takes the growth path with a full buffer (R163, R164). -/
theorem appendByte (h : BlockInv s) (hc : s.cfgd = true) (hp : s.pend = .none) (hh : s.halt = false)
    (x : Byte) (k : AppendKind) (hf : s.fsm = k.fsm) : BlockInv (appendByte x k s) := by
  rcases appendByte_cases x k s with ⟨hlt, e⟩ | ⟨hge, e⟩ <;> rw [e]
  · exact (h.setDecoder hc hp .inFrame s.halt (n := s.length + 1) (rb := s.rb ++ [x]) hlt
      (by simp [h.rb_length])).finish _ _ _
  · exact h.growBuffer hc hp hh (Nat.le_antisymm h.length_le hge) x k hf

/-- A restart empties the buffer, and is posted where there is a restart sink (R165). -/
theorem restartFrame (h : BlockInv s) (hc : s.cfgd = true) (hp : s.pend = .none) (hh : s.halt = false)
    (b : Byte) (k : RestartKind) : BlockInv (restartFrame b k s) := by
  have hd : BlockInv { s with rstByte := b, fsm := .idle, length := 0, rb := [] } :=
    { h.setDecoder hc hp .idle s.halt (Nat.zero_le _) (rb := []) rfl with }
  rcases restartFrame_cases b k s with ⟨he, e⟩ | ⟨-, e⟩ <;> rw [e]
  · exact (hd.post hc hh (.rst k) s.allocSize (by simp) (by simp) (fun _ _ => ⟨rfl, rfl, he⟩)).record _
  · exact hd.finish _ _ _

/-- DECB keeps the invariant, row by row (R152). -/
theorem decodeByte (h : BlockInv s) (hp : s.pend = .none) (b : Byte) : BlockInv (decodeByte b s) := by
  rcases decodeByte_cases b s with
    ⟨-, e⟩ | ⟨-, -, e⟩ | ⟨hc, -, -, -, e⟩ | ⟨-, -, -, -, e⟩ | ⟨hc, hh, -, -, e⟩ | ⟨hc, hh, -, -, -, e⟩ |
    ⟨hc, -, -, -, -, -, e⟩ | ⟨hc, hh, hf, -, -, -, e⟩ | ⟨hc, hh, hf, -, e⟩ | ⟨hc, hh, -, -, e⟩ <;> rw [e]
  · exact h.finish _ _ _
  · exact h.finish _ _ _
  · exact (h.setDecoder hc hp .inFrame s.halt (Nat.zero_le _) (rb := []) rfl).finish _ _ _
  · exact h.finish _ _ _
  · exact ((h.setDecoder hc hp .idle s.halt h.length_le h.rb_length).post hc hh .pkt s.allocSize (by simp)
      (fun _ => rfl) (by simp)).record _
  · exact h.restartFrame hc hp hh b .dup
  · exact (h.setDecoder hc hp .escaping s.halt h.length_le h.rb_length).finish _ _ _
  · exact h.appendByte hc hp hh b .data hf
  · exact h.appendByte hc hp hh (tableGet s.dm b) .unesc hf
  · exact h.restartFrame hc hp hh b .badEsc

/-! ### The answers -/

/-- The size that a pending request names, as the growth path computed it (R164). -/
theorem pending_request (h : BlockInv s) {x : Byte} {k : AppendKind} (hp : s.pend = .alloc x k) :
    s.length = s.capacity ∧ s.allocSize.toNat = nextCapacity s.capacity ∧ s.allocSize.toNat ≤ s.params.rbMax :=
  h.alloc_pending x k hp

/-- A pending request is for more than CAPACITY (R43(f)). -/
theorem capacity_lt_allocSize (h : BlockInv s) {x : Byte} {k : AppendKind} (hp : s.pend = .alloc x k) :
    s.capacity < s.allocSize.toNat := by
  obtain ⟨-, hs, -⟩ := h.pending_request hp
  exact hs ▸ lt_nextCapacity s.capacity

/-- GRANT: the byte that filled the buffer fits the capacity that ALLOC_SIZE named (R167). -/
theorem grantAlloc (h : BlockInv s) {x : Byte} {k : AppendKind} (hp : s.pend = .alloc x k) :
    BlockInv (grantAlloc x k s) := by
  obtain ⟨hl, hs, hle⟩ := h.pending_request hp
  have hc : s.cfgd = true := h.cfgd_of_pend (by simp [hp])
  have hlt : s.length < s.allocSize.toNat := hl ▸ h.capacity_lt_allocSize hp
  have hform : ∃ k : Fin 24, s.allocSize.toNat = 256 * 2 ^ k.val :=
    hs ▸ nextCapacity_form h.capacity_form (hs ▸ hle)
  have hcap : BlockInv { s with capacity := s.allocSize.toNat, pend := .none } :=
    h.clearPend.setCapacity hc rfl hlt.le hle hform
  exact ((hcap.record (.allocAnswer true)).setDecoder hc rfl .inFrame s.halt (n := s.length + 1) (rb := s.rb ++ [x]) hlt
    (by simp [h.rb_length])).finish _ _ _

/-- DENY: decoding halts with nothing pending (R168). -/
theorem denyAlloc (h : BlockInv s) (hp : s.pend ≠ .none) : BlockInv (denyAlloc s) :=
  ((h.clearPend.setDecoder (h.cfgd_of_pend hp) rfl s.fsm true h.length_le h.rb_length).record _).finish _ _ _

end BlockInv

/-! ### Every step keeps it -/

/-- Every effect keeps the invariant. -/
theorem StepEffect.blockInv {u t : State} {x : HostInput} (he : StepEffect u x t) (h : BlockInv u) : BlockInv t := by
  cases he with
  | reset => exact { blockInv_resetWith h.params with }
  | read _ _ _ => exact { h with }
  | refused _ _ => exact h.respond _
  | rejected _ _ => exact (h.finish _ _ _).respond _
  | init _ _ hp _ hok => exact ((h.emptyContext hp true _ fun _ => ⟨hok, rfl⟩).finish _ _ _).respond _
  | deinit _ _ hp _ => exact ((h.emptyContext hp false u.dm (by simp)).finish _ _ _).respond _
  | decb _ b _ hp _ _ => exact (h.decodeByte hp b).respond _
  | resume _ _ hp hc => exact ((h.setDecoder hc hp u.fsm false h.length_le h.rb_length).finish _ _ _).respond _
  | restart _ _ hp hc => exact ((h.setDecoder hc hp .idle false (Nat.zero_le _) (rb := []) rfl).finish _ _ _).respond _
  | encode _ _ _ _ _ _ _ hr => exact ((h.writeFrame hr).finish _ _ _).respond _
  | noAnswer _ => exact h.respond _
  | ackPacket _ _ => exact (h.clearPend.finish _ _ _).respond _
  | ackRestart _ _ _ => exact (h.clearPend.finish _ _ _).respond _
  | grant _ _ _ _ hp => exact (h.grantAlloc hp).respond _
  | deny _ _ _ hp => exact (h.denyAlloc (by simp [hp])).respond _
  | writeCtrl d hc => exact (h.configure hc (ctrlOf d) u.delim u.act u.em).respond _
  | writeDelim d hc => exact (h.configure hc u.ctrl (delimOf d) u.act u.em).respond _
  | writeUser _ _ => exact { h with }
  | writeEnt v d hc =>
    exact (h.configure hc u.ctrl u.delim (tableSet u.act v (entActive d)) (tableSet u.em v (entCode d))).respond _
  | writeRbIdx _ => exact { h with }
  | writeEp _ d hi => exact (h.writeEp hi (byteOf d)).respond _
  | writeEo _ d hi => exact (h.writeEo hi (byteOf d)).respond _

/-- Settles O11: each effect that a step can have keeps the invariant, and the rest of the inputs is no part of it. -/
theorem stepKeepsTheInvariant : Obligations.StepKeepsTheInvariant := by
  intro s t h hstep
  obtain ⟨-, rfl⟩ | ⟨x, rest, -, he⟩ := step_effect hstep
  · exact h
  · exact he.blockInv { h with }

end Sys2Proof.Machine
end

section
/-! Who writes what: for a register, the inputs whose effect can change it. -/

namespace Sys2Proof.Machine

/-! ### What DECB leaves -/

/-- The registers that DECB does not write (R152): the context and its capacity, the host's registers, the
configuration and the memories. -/
structure DecoderKeeps (s t : State) : Prop where
  cfgd : t.cfgd = s.cfgd
  capacity : t.capacity = s.capacity
  rbIdx : t.rbIdx = s.rbIdx
  delim : t.delim = s.delim
  ctrl : t.ctrl = s.ctrl
  user : t.user = s.user
  act : t.act = s.act
  em : t.em = s.em
  dm : t.dm = s.dm
  ep : t.ep = s.ep
  eo : t.eo = s.eo
  params : t.params = s.params

theorem appendByte_keeps (x : Byte) (k : AppendKind) (s : State) : DecoderKeeps s (appendByte x k s) := by
  rcases appendByte_cases x k s with ⟨-, e⟩ | ⟨-, e⟩ <;> rw [e]
  · constructor <;> rfl
  · rcases growBuffer_cases x k s with ⟨-, e⟩ | ⟨-, e⟩ <;> rw [e] <;> constructor <;> rfl

theorem restartFrame_keeps (b : Byte) (k : RestartKind) (s : State) : DecoderKeeps s (restartFrame b k s) := by
  rcases restartFrame_cases b k s with ⟨-, e⟩ | ⟨-, e⟩ <;> rw [e] <;> constructor <;> rfl

theorem decodeByte_keeps (b : Byte) (s : State) : DecoderKeeps s (decodeByte b s) := by
  rcases decodeByte_cases b s with
    ⟨-, e⟩ | ⟨-, -, e⟩ | ⟨-, -, -, -, e⟩ | ⟨-, -, -, -, e⟩ | ⟨-, -, -, -, e⟩ | ⟨-, -, -, -, -, e⟩ |
    ⟨-, -, -, -, -, -, e⟩ | ⟨-, -, -, -, -, -, e⟩ | ⟨-, -, -, -, e⟩ | ⟨-, -, -, -, e⟩ <;> rw [e]
  · constructor <;> rfl
  · constructor <;> rfl
  · constructor <;> rfl
  · constructor <;> rfl
  · constructor <;> rfl
  · exact restartFrame_keeps b .dup s
  · constructor <;> rfl
  · exact appendByte_keeps b .data s
  · exact appendByte_keeps (tableGet s.dm b) .unesc s
  · exact restartFrame_keeps b .badEsc s

/-! ### The decode map, HALT, CFGD, CAPACITY -/

/-- The causes of R124 as `NoConfigError` words them. -/
theorem noConfigError_of_configError {s : State} (h : configError s = false) : NoConfigError s := by
  obtain ⟨hs, he, hp, ha, hi⟩ := (configError_eq_false_iff s).mp h
  exact ⟨hs, he, hp, ha, fun hc => (injectiveOnActive_iff s.act s.em).mp (hi hc)⟩

/-- Settles O17: of the effects, only INIT's and the reset's write DM. -/
theorem onlyInitAndResetWriteTheDecodeMap : Obligations.OnlyInitAndResetWriteTheDecodeMap := by
  intro s t hstep hne
  obtain ⟨-, rfl⟩ | ⟨x, rest, hs, he⟩ := step_effect hstep
  · exact absurd rfl hne
  cases he with
  | reset => exact .inl ⟨rest, hs⟩
  | init d hd hp hc hok => exact .inr ⟨⟨d, rest, hs, hd, hp⟩, hc, rfl, noConfigError_of_configError hok⟩
  | decb _ b => exact absurd (decodeByte_keeps b _).dm hne
  | _ => exact absurd rfl hne

/-- Settles O18: INIT would clear HALT as well, but a halt shows that the context exists; DECB does not run halted. -/
theorem onlyRecoveryClearsHalt : Obligations.OnlyRecoveryClearsHalt := by
  intro s t hinv hhalt hstep hclear
  obtain ⟨-, rfl⟩ | ⟨x, rest, hs, he⟩ := step_effect hstep
  · simp [hhalt] at hclear
  cases he with
  | reset => exact .inl ⟨rest, hs⟩
  | resume d hd hp _ => exact .inr (.inl ⟨d, rest, hs, hd, hp⟩)
  | restart d hd hp _ => exact .inr (.inr (.inl ⟨d, rest, hs, hd, hp⟩))
  | deinit d hd hp _ => exact .inr (.inr (.inr ⟨d, rest, hs, hd, hp⟩))
  | init _ _ _ hc _ => exact absurd (hc.symm.trans (hinv.cfgd_of_halt hhalt)) Bool.false_ne_true
  | decb _ _ _ _ _ hh => exact absurd (hh.symm.trans hhalt) Bool.false_ne_true
  | deny => exact absurd hclear.symm Bool.false_ne_true
  | _ => exact absurd (hclear.symm.trans hhalt) Bool.false_ne_true

/-- Settles O19: INIT runs only with CFGD = 0 and DEINIT only with CFGD = 1; a reset clears it. -/
theorem onlyInitAndDeinitMoveTheContext : Obligations.OnlyInitAndDeinitMoveTheContext := by
  intro s t hstep hne
  obtain ⟨-, rfl⟩ | ⟨x, rest, hs, he⟩ := step_effect hstep
  · exact absurd rfl hne
  cases he with
  | reset => exact .inr ⟨by simpa using hne.symm, .inr ⟨rest, hs⟩⟩
  | init d hd hp hc _ => exact .inl ⟨hc, d, rest, hs, hd, hp⟩
  | deinit d hd hp hc => exact .inr ⟨hc, .inl ⟨d, rest, hs, hd, hp⟩⟩
  | decb _ b => exact absurd (decodeByte_keeps b _).cfgd hne
  | _ => exact absurd rfl hne

/-- The answer GRANT is RSP = 2 (R105). -/
theorem rsp_of_answerOf_eq_grant {d : Word} (h : answerOf d = .grant) : d.extractLsb' 0 2 = 2#2 := by
  unfold answerOf at h
  split at h <;> cases h
  next e => exact BitVec.eq_of_toNat_eq e

/-- Settles O21: a GRANT sets CAPACITY to the pending request, which is for more (R43(f)); INIT finds CAPACITY 0, since
there is no context. -/
theorem capacityGrowsOnlyByGrant : Obligations.CapacityGrowsOnlyByGrant := by
  intro s t hinv hstep hne
  obtain ⟨-, rfl⟩ | ⟨x, rest, hs, he⟩ := step_effect hstep
  · exact absurd rfl hne
  cases he with
  | reset => exact .inr ⟨rfl, .inr ⟨rest, hs⟩⟩
  | init _ _ _ hc _ =>
    obtain ⟨-, -, hcap, -, -⟩ := hinv.unconfigured hc
    exact absurd hcap.symm hne
  | deinit d hd hp _ => exact .inr ⟨rfl, .inl ⟨d, rest, hs, hd, hp⟩⟩
  | grant d x k ha hp =>
    exact .inl ⟨⟨d, rest, hs, rsp_of_answerOf_eq_grant ha⟩, ⟨x, k, hp⟩, hinv.capacity_lt_allocSize hp, rfl⟩
  | decb _ b => exact absurd (decodeByte_keeps b _).capacity hne
  | _ => exact absurd rfl hne

/-! ### The host's registers and the parameters -/

/-- Settles O22, register by register: each effect that writes one is a write to its address, ENCODE's of EO apart. -/
theorem hostRegistersChangeOnlyByTheHost : Obligations.HostRegistersChangeOnlyByTheHost := by
  intro s t hstep hreset
  obtain ⟨-, rfl⟩ | ⟨x, rest, hs, he⟩ := step_effect hstep
  · exact ⟨absurd rfl, absurd rfl, absurd rfl, absurd rfl⟩
  cases he with
  | reset => exact absurd ⟨rest, hs⟩ hreset
  | writeRbIdx d => exact ⟨fun _ => ⟨d, rest, hs⟩, absurd rfl, absurd rfl, absurd rfl⟩
  | writeUser d => exact ⟨absurd rfl, fun _ => ⟨d, rest, hs⟩, absurd rfl, absurd rfl⟩
  | writeEp i d hi => exact ⟨absurd rfl, absurd rfl, fun _ => ⟨i, ⟨d, rest, hs⟩, hi⟩, absurd rfl⟩
  | writeEo i d hi => exact ⟨absurd rfl, absurd rfl, absurd rfl, fun _ => .inl ⟨i, ⟨d, rest, hs⟩, hi⟩⟩
  | encode d n c _ hd hp =>
    exact ⟨absurd rfl, absurd rfl, absurd rfl, fun _ => .inr ⟨n, c, d, rest, hs, hd, hp⟩⟩
  | decb _ b =>
    have hk := decodeByte_keeps b { s with script := rest }
    exact ⟨absurd hk.rbIdx, absurd hk.user, absurd hk.ep, absurd hk.eo⟩
  | _ => exact ⟨absurd rfl, absurd rfl, absurd rfl, absurd rfl⟩

/-- No step changes a parameter (R8, R45). -/
theorem step_params {s t : State} (hstep : step s = .next t) : t.params = s.params := by
  obtain ⟨-, rfl⟩ | ⟨x, rest, -, he⟩ := step_effect hstep
  · rfl
  cases he with
  | decb _ b => exact (decodeByte_keeps b _).params
  | _ => rfl

/-! ### The constant registers and the reset values -/

theorem execRd32_id (s : State) : exec (.rd32 0x00000#18) s = .next { s with bus := .data Config.idValue } := rfl

theorem execRd32_param0 (s : State) :
    exec (.rd32 0x00024#18) s = .next { s with bus := .data (param0Word s.params) } := rfl

theorem execRd32_param1 (s : State) :
    exec (.rd32 0x00028#18) s = .next { s with bus := .data (param1Word s.params) } := rfl

/-- PARAM0 shows the two sizes of the memories (R42). -/
theorem param0Word_fields {p : Params} (hp : p.wf) :
    ((param0Word p).extractLsb' 0 16).toNat = p.epSize ∧ ((param0Word p).extractLsb' 16 16).toNat = p.eoSize := by
  obtain ⟨-, hep, -, heo⟩ := hp
  rw [param0Word, BitVec.extractLsb'_append_eq_right, BitVec.extractLsb'_append_eq_left, BitVec.toNat_ofNat,
    BitVec.toNat_ofNat]
  omega

/-- PARAM1 as a number: log2(P_RB_MAX), and P_CHECK_INJ at bit 8 (R42). -/
theorem param1Word_toNat (p : Params) : (param1Word p).toNat = p.checkInj.toNat * 2 ^ 8 + (8 + p.rbMaxExp.val) := by
  show (0#23 ++ BitVec.ofBool p.checkInj ++ 0#3 ++ BitVec.ofNat 5 p.rbMaxLog2 : BitVec (23 + 1 + 3 + 5)).toNat = _
  rw [toNat_concat, toNat_concat, toNat_concat, BitVec.toNat_ofNat, BitVec.toNat_ofBool, Params.rbMaxLog2]
  simp
  omega

/-- PARAM1 shows log2(P_RB_MAX) and P_CHECK_INJ, and nothing else (R42). -/
theorem param1Word_fields (p : Params) :
    2 ^ ((param1Word p).extractLsb' 0 5).toNat = p.rbMax ∧ (param1Word p).extractLsb' 5 3 = 0#3 ∧
      (param1Word p).getLsbD 8 = p.checkInj ∧ (param1Word p).extractLsb' 9 23 = 0#23 := by
  have hb : p.checkInj.toNat ≤ 1 := p.checkInj.toNat_le
  have field (i n : Nat) : ((param1Word p).extractLsb' i n).toNat =
      (p.checkInj.toNat * 2 ^ 8 + (8 + p.rbMaxExp.val)) / 2 ^ i % 2 ^ n := by
    rw [BitVec.extractLsb'_toNat, param1Word_toNat, Nat.shiftRight_eq_div_pow]
  refine ⟨?_, BitVec.eq_of_toNat_eq ?_, ?_, BitVec.eq_of_toNat_eq ?_⟩
  · have hlog : ((param1Word p).extractLsb' 0 5).toNat = 8 + p.rbMaxExp.val := by rw [field]; omega
    rw [hlog, pow_add]
    rfl
  · rw [field, BitVec.toNat_ofNat]; omega
  · rw [BitVec.getLsbD, param1Word_toNat, Nat.testBit_eq_decide_div_mod_eq]
    cases p.checkInj <;> simp <;> omega
  · rw [field, BitVec.toNat_ofNat]; omega

/-- Settles O23: no effect writes a parameter, and the three registers read words made of the parameters alone. -/
theorem identificationIsConstant : Obligations.IdentificationIsConstant :=
  ⟨fun _ _ => step_params, fun s hp =>
    ⟨execRd32_id s, ⟨_, execRd32_param0 s, param0Word_fields hp⟩, ⟨_, execRd32_param1 s, param1Word_fields s.params⟩⟩⟩

/-- RESULT reads 0 after a reset (R46, R101). -/
theorem resultWord_hostReset (s : State) : resultWord (hostReset s).result = 0x00000000#32 := by
  rw [hostReset_result]
  decide

/-- Settles O8: the reset state field by field; the three identification registers read only the parameters, which
stay. -/
theorem hostResetLeavesTheResetValues : Obligations.HostResetLeavesTheResetValues := by
  intro s rest hs
  refine ⟨hostReset { s with script := rest }, by rw [step, hs], rfl, rfl, rfl, rfl, rfl, rfl, resultWord_hostReset _,
    rfl, rfl, rfl, rfl, rfl, rfl, rfl, rfl, rfl, rfl, rfl, tableGet_replicate _, Memory.read_nil, Memory.read_nil,
    rfl, rfl, rfl, ?_⟩
  intro a ha
  simp only [List.mem_cons, List.not_mem_nil, or_false] at ha
  rcases ha with rfl | rfl | rfl
  · exact ⟨_, execRd32_id s, execRd32_id _⟩
  · exact ⟨_, execRd32_param0 s, execRd32_param0 _⟩
  · exact ⟨_, execRd32_param1 s, execRd32_param1 _⟩

/-- Settles O9: the tables of the worked example are two entries set in a constant table (R33). -/
theorem defaultResetConfiguration : Obligations.DefaultResetConfiguration := by
  refine ⟨rfl, rfl, rfl, rfl, fun v => ⟨?_, ?_⟩⟩
  · have e : State.reset.act = tableSet (tableSet (Vector.replicate 256 false) 0xC0#8 true) 0xDB#8 true := rfl
    rw [e, tableGet_tableSet, tableGet_tableSet, tableGet_replicate]
    by_cases hC : v = 0xC0#8 <;> by_cases hD : v = 0xDB#8 <;> simp [hC, hD]
  · have e : State.reset.em = tableSet (tableSet (Vector.replicate 256 0x00#8) 0xC0#8 0xDC#8) 0xDB#8 0xDD#8 := rfl
    rw [e, tableGet_tableSet, tableGet_tableSet, tableGet_replicate]
    by_cases hC : v = 0xC0#8
    · simp [hC]
    · simp [hC]

end Sys2Proof.Machine
end

section
/-! Reads, the configuration in a context, and how a placed table word comes to run. -/

namespace Sys2Proof.Machine

/-! ### Reads -/

/-- A read of a mapped place only answers, or draws a free byte and answers it (R66, U2). -/
theorem readTarget_cases (p : Target) (s : State) :
    (∃ r, readTarget p s = respond r s) ∨
      readTarget p s = respond (.data (byteWord (Config.freeByte s.draws))) { s with draws := s.draws + 1 } := by
  cases p with
  | rbData => obtain ⟨_, -, -, e⟩ | ⟨-, e⟩ := readRbData_cases s <;> exact .inl ⟨_, e⟩
  | ep i =>
    obtain ⟨_, -, e⟩ | ⟨-, e⟩ := readCell_cases s.ep i s
    · exact .inl ⟨_, e⟩
    · exact .inr e
  | eo i =>
    obtain ⟨_, -, e⟩ | ⟨-, e⟩ := readCell_cases s.eo i s
    · exact .inl ⟨_, e⟩
    · exact .inr e
  | _ => exact .inl ⟨_, rfl⟩

/-- The same of a read of any address: one that names no place is refused (R222). -/
theorem readWord_cases (a : Addr) (s : State) :
    (∃ r, readWord a s = respond r s) ∨
      readWord a s = respond (.data (byteWord (Config.freeByte s.draws))) { s with draws := s.draws + 1 } := by
  unfold readWord
  split
  · exact .inl ⟨.buserr, rfl⟩
  · next p _ => exact readTarget_cases p s

/-- Settles O15: a response is the whole effect of a read, a free draw apart. -/
theorem readsChangeNoState : Obligations.ReadsChangeNoState := by
  intro s a
  obtain ⟨r, e⟩ | e := readWord_cases a s
  · exact ⟨r, s.draws, congrArg Host.Outcome.next e, .inl rfl⟩
  · exact ⟨_, s.draws + 1, congrArg Host.Outcome.next e, .inr ⟨rfl, rfl⟩⟩

/-! ### The configuration in a context -/

/-- Settles O16: the effects that write the configuration or DM need CFGD = 0, the reset apart. -/
theorem configurationIsLockedInAContext : Obligations.ConfigurationIsLockedInAContext := by
  intro s t hctx hreset hstep
  obtain ⟨-, rfl⟩ | ⟨x, rest, hs, he⟩ := step_effect hstep
  · exact ⟨rfl, rfl, rfl, rfl, rfl, rfl⟩
  have locked : s.cfgd ≠ false := by simp [hctx]
  cases he with
  | reset => exact absurd ⟨rest, hs⟩ hreset
  | init _ _ _ hc _ => exact absurd hc locked
  | writeCtrl _ hc => exact absurd hc locked
  | writeDelim _ hc => exact absurd hc locked
  | writeUser _ hc => exact absurd hc locked
  | writeEnt _ _ hc => exact absurd hc locked
  | decb _ b =>
    have hk := decodeByte_keeps b { s with script := rest }
    exact ⟨hk.delim, hk.ctrl, hk.user, hk.act, hk.em, hk.dm⟩
  | _ => exact ⟨rfl, rfl, rfl, rfl, rfl, rfl⟩

/-! ### A placed table word -/

/-- What a table word stands for, by the size of its row (R90; log entry 3). -/
theorem codeOfTable_eq_some {nbits w : Nat} {c : Code} (h : codeOfTable nbits w = some c) :
    (nbits = 32 ∧ c = .command (BitVec.ofNat 32 w)) ∨ (nbits ≠ 32 ∧ c = .bus (transactionOfTable w)) := by
  unfold codeOfTable at h
  split at h
  · next hn =>
    split at h <;> cases h
    exact .inl ⟨hn, rfl⟩
  · next hn =>
    split at h <;> cases h
    exact .inr ⟨hn, rfl⟩

theorem decodeTableWord_eq_some {nbits w : Nat} {i : Instr} (h : decodeTableWord nbits w = some i) :
    ∃ c, codeOfTable nbits w = some c ∧ decode c = .ok i := by
  unfold decodeTableWord at h
  split at h
  · cases h
  · next c hc =>
    split at h <;> cases h
    next hd => exact ⟨c, hc, hd⟩

/-- A word decodes to the row of the command it selects (R96). -/
theorem decode_command_eq_ok {d : Word} {i : Instr} (h : decode (.command d) = .ok i) :
    ∃ c, decodeCommand d = .ok c ∧ c.toInstr = i := by
  rw [decode] at h
  cases hd : decodeCommand d with
  | error e => rw [hd] at h; cases h
  | ok c => rw [hd] at h; cases h; exact ⟨c, rfl, rfl⟩

/-- With nothing pending, a CMD write of a legal word runs its command (R92, R224). -/
theorem writeCommand_eq_exec {d : Word} {c : Command} {s : State} (hp : s.pend = .none)
    (hd : decodeCommand d = .ok c) : writeCommand d s = exec c.toInstr s := by
  obtain ⟨hn, -⟩ | ⟨e, -, he, -⟩ | ⟨c', -, hc, e⟩ := writeCommand_cases d s
  · exact absurd hp hn
  · cases hd.symm.trans he
  · cases hd.symm.trans hc; exact e

/-- The placed transaction runs on the state as it was before the placing. -/
theorem step_withFetchWord (s : State) (nbits w : Nat) :
    step (s.withFetchWord nbits w) = exec (decodeTransaction (fetchOfTable nbits w)) s := rfl

/-- A placed bus row is the transaction itself (log entry 3). -/
theorem fetchOfTable_bus {nbits : Nat} (hn : nbits ≠ 32) (w : Nat) : fetchOfTable nbits w = transactionOfTable w :=
  if_neg hn

/-- A placed command word is carried by a CMD write (R92). -/
theorem exec_fetchOfTable_command (w : Nat) (s : State) :
    exec (decodeTransaction (fetchOfTable 32 w)) s = writeCommand (BitVec.ofNat 32 w) s := rfl

/-- A placed table word runs as the instruction it stands for. -/
theorem step_withFetchWord_of_decodeTableWord {s : State} {nbits w : Nat} {i : Instr}
    (h : decodeTableWord nbits w = some i) (hp : nbits = 32 → s.pend = .none) :
    step (s.withFetchWord nbits w) = exec i s := by
  rw [step_withFetchWord]
  obtain ⟨c, hc, hd⟩ := decodeTableWord_eq_some h
  obtain ⟨rfl, rfl⟩ | ⟨hn, rfl⟩ := codeOfTable_eq_some hc
  · obtain ⟨k, hk, rfl⟩ := decode_command_eq_ok hd
    rw [exec_fetchOfTable_command, writeCommand_eq_exec (hp rfl) hk]
  · cases hd
    rw [fetchOfTable_bus hn]

/-- Settles O5: the two branches of `step`, and a table word's row through the transaction that carries it. -/
theorem stepRunsTheDecodedInstruction : Obligations.StepRunsTheDecodedInstruction := by
  refine ⟨fun s t rest i hs hd => ?_, fun s hs => ?_, fun s nbits w i => step_withFetchWord_of_decodeTableWord⟩
  · cases hd
    rw [step, hs]
  · rw [step, hs]

end Sys2Proof.Machine
end

section
/-! The codec both ways: a code decodes to an instruction exactly when it is that instruction's encoding, and the match
and mask of each row of R96. -/

namespace Sys2Proof

open Sys2Proof.Machine

/-! ### Command words -/

/-- Every command's row is well formed (R96). -/
@[simp] theorem Command.toInstr_wf (c : Command) : c.toInstr.wf = true := by cases c <;> rfl

@[simp] theorem encode_toInstr (c : Command) : encode c.toInstr = .command (encodeCommand c) := by cases c <;> rfl

/-- A command's row decodes back (R96). -/
theorem decode_encode_toInstr (c : Command) : decode (encode c.toInstr) = .ok c.toInstr := by
  rw [encode_toInstr, decode, decodeCommand_encodeCommand]
  rfl

theorem opField_toNat (w : Word) : (opField w).toNat = w.toNat / 2 ^ 28 := by
  rw [opField, BitVec.extractLsb'_toNat, Nat.shiftRight_eq_div_pow]
  omega

/-- A word of format N is its opcode alone (R93). -/
theorem formatN_eq_ok {c k : Command} {w : Word} (h : formatN c w = .ok k) : k = c ∧ w.toNat % 2 ^ 28 = 0 := by
  unfold formatN at h
  split at h <;> cases h
  next hr => exact ⟨rfl, by simpa using congrArg BitVec.toNat hr⟩

/-- A word of format B is DECB of its low byte, with nothing between that and the opcode (R94). -/
theorem formatB_eq_ok {k : Command} {w : Word} (h : formatB w = .ok k) :
    k = .decb (w.extractLsb' 0 8) ∧ w.toNat / 2 ^ 8 % 2 ^ 20 = 0 := by
  unfold formatB at h
  split at h <;> cases h
  next hr => exact ⟨rfl, by simpa [Nat.shiftRight_eq_div_pow] using congrArg BitVec.toNat hr⟩

/-- A word that decodes has the command's encoding: the decoder drops no bit (R96). -/
theorem encodeCommand_of_decodeCommand {w : Word} {c : Command} (h : decodeCommand w = .ok c) :
    encodeCommand c = w := by
  apply BitVec.eq_of_toNat_eq
  have hop := opField_toNat w
  unfold decodeCommand at h
  split at h
  · obtain ⟨rfl, hr⟩ := formatN_eq_ok h
    show 0x10000000 = w.toNat
    omega
  · obtain ⟨rfl, hr⟩ := formatN_eq_ok h
    show 0x20000000 = w.toNat
    omega
  · obtain ⟨rfl, hr⟩ := formatB_eq_ok h
    rw [encodeCommand_decb_toNat, BitVec.extractLsb'_toNat, Nat.shiftRight_zero]
    omega
  · obtain ⟨rfl, hr⟩ := formatN_eq_ok h
    show 0x40000000 = w.toNat
    omega
  · obtain ⟨rfl, hr⟩ := formatN_eq_ok h
    show 0x50000000 = w.toNat
    omega
  · cases h
    rw [formatE, encodeCommand_encode_toNat, BitVec.extractLsb'_toNat, BitVec.extractLsb'_toNat, Nat.shiftRight_zero,
      Nat.shiftRight_eq_div_pow]
    omega
  · cases h

/-- A word selects a command exactly when it is the command's encoding (R96). -/
theorem decodeCommand_eq_ok_iff {w : Word} {c : Command} : decodeCommand w = .ok c ↔ w = encodeCommand c :=
  ⟨fun h => (encodeCommand_of_decodeCommand h).symm, fun h => h ▸ decodeCommand_encodeCommand c⟩

/-- DECB's row: BYTE is the low byte, and the mask of R96 takes the other 24 bits. -/
theorem eq_encodeCommand_decb_iff {w : Word} {b : Byte} :
    w = encodeCommand (.decb b) ↔ b = w.extractLsb' 0 8 ∧ w &&& 0xFFFFFF00#32 = 0x30000000#32 := by
  have hmask : (w &&& 0xFFFFFF00#32).toNat = w.toNat / 2 ^ 8 * 2 ^ 8 := toNat_and_highMask w 8
  rw [← BitVec.toNat_inj, ← BitVec.toNat_inj, ← BitVec.toNat_inj, hmask, encodeCommand_decb_toNat,
    BitVec.extractLsb'_toNat, Nat.shiftRight_zero, BitVec.toNat_ofNat]
  omega

/-- ENCODE's row: NLEN and OCAP are the two low fields, and the mask of R96 takes the opcode. -/
theorem eq_encodeCommand_encode_iff {w : Word} {n k : BitVec 14} :
    w = encodeCommand (.encode n k) ↔
      n = w.extractLsb' 14 14 ∧ k = w.extractLsb' 0 14 ∧ w &&& 0xF0000000#32 = 0x60000000#32 := by
  have hmask : (w &&& 0xF0000000#32).toNat = w.toNat / 2 ^ 28 * 2 ^ 28 := toNat_and_highMask w 28
  rw [← BitVec.toNat_inj, ← BitVec.toNat_inj, ← BitVec.toNat_inj, ← BitVec.toNat_inj, hmask,
    encodeCommand_encode_toNat, BitVec.extractLsb'_toNat, BitVec.extractLsb'_toNat, Nat.shiftRight_zero,
    Nat.shiftRight_eq_div_pow, BitVec.toNat_ofNat]
  omega

/-- The mask of a format N row takes the whole word (R96). -/
theorem and_fullMask (w : Word) : w &&& 0xFFFFFFFF#32 = w := BitVec.and_allOnes

/-- Settles O4: a word selects a command exactly when it is its encoding, and that is the match and mask of its row. -/
theorem commandSelectedByMatchAndMask : Obligations.CommandSelectedByMatchAndMask := by
  intro w c
  rw [decodeCommand_eq_ok_iff, and_fullMask]
  cases c with
  | init => simp [encodeCommand]
  | deinit => simp [encodeCommand]
  | resume => simp [encodeCommand]
  | restart => simp [encodeCommand]
  | decb b => simp [eq_encodeCommand_decb_iff]
  | encode n k => simp [eq_encodeCommand_encode_iff, and_assoc]

/-- A word that R97 calls illegal selects no command. -/
theorem decodeCommand_of_illegalWord {w : Word} (h : IllegalWord w) : ∃ e, decodeCommand w = .error e := by
  obtain h | h | ⟨h | h | h | h, hr⟩ | ⟨h, hr⟩ := h
  · exact ⟨.reservedOpcode, by simp [decodeCommand, opField, h]⟩
  · have h7 : 7 ≤ (opField w).toNat := h
    refine ⟨.reservedOpcode, ?_⟩
    unfold decodeCommand
    split
    iterate 6 omega
    rfl
  all_goals exact ⟨.reservedBits, by simp [decodeCommand, opField, h, formatN, formatB, hr]⟩

/-! ### Bus transactions -/

theorem decodeWrite_entAddr (v : Byte) (d : Word) : decodeWrite (entAddr v) d = .wr32Ent v d := by
  have hrow : BitVec.ofNat 8 ((0x400 + 4 * v.toNat - 0x400) / 4) = v := by simp
  simp only [decodeWrite, entAddr_toNat, hrow]
  iterate 7 rw [if_neg (by omega)]
  rw [if_pos (by omega)]

theorem decodeWrite_epAddr (i : BitVec 14) (d : Word) : decodeWrite (epAddr i) d = .wr32Ep i d := by
  have hrow : BitVec.ofNat 14 ((0x10000 + 4 * i.toNat - 0x10000) / 4) = i := by simp
  simp only [decodeWrite, epAddr_toNat, hrow]
  iterate 8 rw [if_neg (by omega)]
  rw [if_pos (by omega)]

theorem decodeWrite_eoAddr (i : BitVec 14) (d : Word) : decodeWrite (eoAddr i) d = .wr32Eo i d := by
  have hrow : BitVec.ofNat 14 ((0x20000 + 4 * i.toNat - 0x20000) / 4) = i := by simp
  simp only [decodeWrite, eoAddr_toNat, hrow]
  iterate 9 rw [if_neg (by omega)]
  rw [if_pos (by omega)]

/-- An address that no other row takes is WR32_RO's (R63). -/
theorem decodeWrite_of_not_taken {a : Addr} (h : writeRowTakes a = false) (d : Word) :
    decodeWrite a d = .wr32Ro a d := by
  simp only [writeRowTakes, Bool.or_eq_false_iff, Bool.and_eq_false_iff, beq_eq_false_iff_ne, decide_eq_false_iff_not,
    ne_eq] at h
  simp only [decodeWrite]
  iterate 6 rw [if_neg (by omega)]
  split
  · rfl
  iterate 3 rw [if_neg (by omega)]

/-- Settles O2: a command's word selects it, and a write's address selects its row. -/
theorem encodedInstructionDecodesBack : Obligations.EncodedInstructionDecodesBack := by
  intro i hwf
  cases i with
  | init => exact decode_encode_toInstr .init
  | deinit => exact decode_encode_toInstr .deinit
  | decb b => exact decode_encode_toInstr (.decb b)
  | resume => exact decode_encode_toInstr .resume
  | restart => exact decode_encode_toInstr .restart
  | encode n k => exact decode_encode_toInstr (.encode n k)
  | rd32 _ | wr32Ctrl _ | wr32Delim _ | wr32User _ | wr32Cmd _ | wr32Resp _ | wr32RbIdx _ => rfl
  | wr32Ent v d => exact congrArg Except.ok (decodeWrite_entAddr v d)
  | wr32Ep i d => exact congrArg Except.ok (decodeWrite_epAddr i d)
  | wr32Eo i d => exact congrArg Except.ok (decodeWrite_eoAddr i d)
  | wr32Ro a d => exact congrArg Except.ok (decodeWrite_of_not_taken (by simpa [Instr.wf] using hwf) d)

/-- The row that takes a write is well formed and has that write as its encoding. -/
theorem decodeWrite_wf_and_encode (a : Addr) (d : Word) :
    (decodeWrite a d).wf = true ∧ encode (decodeWrite a d) = .bus (.write a d) := by
  rcases decodeWrite_cases a d with
    ⟨rfl, e⟩ | ⟨rfl, e⟩ | ⟨rfl, e⟩ | ⟨rfl, e⟩ | ⟨rfl, e⟩ | ⟨rfl, e⟩ | ⟨v, rfl, e⟩ | ⟨i, rfl, e⟩ |
    ⟨i, rfl, e⟩ | ⟨ha, e⟩ <;> rw [e]
  iterate 9 exact ⟨rfl, rfl⟩
  · exact ⟨by simp [Instr.wf, ha], rfl⟩

/-- Settles O3: a command word that decodes is its command's word, and a transaction is its row's. -/
theorem decodedCodeIsItsEncoding : Obligations.DecodedCodeIsItsEncoding := by
  intro c i h
  cases c with
  | command w =>
    obtain ⟨k, hk, rfl⟩ := decode_command_eq_ok h
    rw [encode_toInstr, encodeCommand_of_decodeCommand hk]
    exact ⟨k.toInstr_wf, rfl⟩
  | bus t =>
    cases h
    cases t with
    | read a => exact ⟨rfl, rfl⟩
    | write a d => exact decodeWrite_wf_and_encode a d

/-- Settles O1: the decoder, run on the eleven words. -/
theorem writtenOutWordsDecode : Obligations.WrittenOutWordsDecode := by
  unfold Obligations.WrittenOutWordsDecode
  decide

end Sys2Proof
end

section
/-! The CMD write, and what the registers read, field by field. -/

namespace Sys2Proof.Machine

/-! ### The CMD write -/

/-- A CMD write while an event is pending is refused (R224). -/
theorem writeCommand_of_pending {s : State} (hp : s.pend ≠ .none) (d : Word) :
    writeCommand d s = .next (respond .buserr s) := by
  simp [writeCommand, busy, hp]

/-- With nothing pending, a CMD write of an illegal word ends in ERR_ILLEGAL (R97). -/
theorem writeCommand_of_illegalWord {s : State} (hp : s.pend = .none) {d : Word} (hd : IllegalWord d) :
    writeCommand d s = .next (respond .ok (finish .errIllegal .none 0#24 s)) := by
  obtain ⟨e, he⟩ := decodeCommand_of_illegalWord hd
  simp [writeCommand, busy, hp, he]

/-- Settles O7: an illegal word selects no command, so the CMD write only ends in ERR_ILLEGAL. -/
theorem illegalCommandWordChangesOnlyResult : Obligations.IllegalCommandWordChangesOnlyResult :=
  fun _ _ hp hd => writeCommand_of_illegalWord hp hd

/-- ENCODE over written cells completes OK, whatever its result (R201, R205). -/
theorem execEncode_completes {n k : BitVec 14} {s : State} (hw : ∀ j < n.toNat, ∃ b, s.ep.read j = some b) :
    ∃ t, execEncode n k s = .next t ∧ t.bus = .ok := by
  rw [execEncode, replyOk_eq]
  rcases encodePayload_cases n.toNat k.toNat (respond .ok s) with
    ⟨-, e⟩ | ⟨-, -, e⟩ | ⟨-, -, -, hr, -⟩ | ⟨p, -, -, -, -, -, e⟩ | ⟨p, -, -, -, -, -, e⟩
  · exact ⟨_, e, rfl⟩
  · exact ⟨_, e, rfl⟩
  · obtain ⟨j, hj, hn⟩ := Memory.readFrom_eq_none.mp hr
    obtain ⟨b, hb⟩ := hw j hj
    rw [Nat.zero_add, respond_ep, hb] at hn
    cases hn
  · exact ⟨_, e, rfl⟩
  · exact ⟨_, e, rfl⟩

/-- A command completes OK, ENCODE where its payload cells are written (R92, R205). -/
theorem exec_toInstr_completes {c : Command} {s : State}
    (hw : ∀ n k, c = .encode n k → ∀ j < n.toNat, ∃ b, s.ep.read j = some b) :
    ∃ t, exec c.toInstr s = .next t ∧ t.bus = .ok := by
  cases c with
  | encode n k => exact execEncode_completes (hw n k rfl)
  | init | deinit | decb _ | resume | restart => exact ⟨_, rfl, rfl⟩

/-- Settles O6: the CMD write checks PEND, then is its command, which completes OK. -/
theorem cmdWriteRunsTheCommand : Obligations.CmdWriteRunsTheCommand := by
  refine ⟨fun s d hp => writeCommand_of_pending hp d, fun s d c hp hd => ?_⟩
  have hrun : exec (.wr32Cmd d) s = exec c.toInstr s := writeCommand_eq_exec hp hd
  exact ⟨hrun, fun hw => hrun ▸ exec_toInstr_completes hw⟩

/-! ### The fields of the words that a read answers

A word is its fields, appended from the high end. Each field is read by peeling off the fields below it. -/

/-- A bit above the lowest field of a word. -/
theorem getLsbD_append_of_le {m n i : Nat} {x : BitVec m} {y : BitVec n} (h : n ≤ i) :
    (x ++ y).getLsbD i = x.getLsbD (i - n) := by
  rw [BitVec.getLsbD_append, if_neg (by omega)]

/-- The lowest field of a word where it is one bit. -/
theorem getLsbD_append_ofBool {m : Nat} {x : BitVec m} {b : Bool} : (x ++ BitVec.ofBool b).getLsbD 0 = b := by
  rw [BitVec.getLsbD_append, if_pos Nat.one_pos]
  simp

/-- CTRL's fields (R100). -/
theorem ctrlWord_fields (c : Ctrl) :
    (ctrlWord c).getLsbD 0 = c.pktEn ∧ (ctrlWord c).getLsbD 1 = c.rstEn ∧ (ctrlWord c).getLsbD 2 = c.allocEn ∧
      (ctrlWord c).extractLsb' 3 29 = 0#29 := by
  refine ⟨?_, ?_, ?_, ?_⟩ <;> rw [ctrlWord]
  · rw [getLsbD_append_ofBool]
  · rw [getLsbD_append_of_le (by decide), getLsbD_append_ofBool]
  · rw [getLsbD_append_of_le (by decide), getLsbD_append_of_le (by decide), getLsbD_append_ofBool]
  · iterate 3 rw [BitVec.extractLsb'_append_eq_of_le (by decide)]
    exact BitVec.extractLsb'_zero

/-- DELIM's fields (R100). -/
theorem delimWord_fields (x : Delim) :
    (delimWord x).extractLsb' 0 8 = x.startByte ∧ (delimWord x).extractLsb' 8 8 = x.endByte ∧
      (delimWord x).extractLsb' 16 8 = x.escByte ∧ (delimWord x).extractLsb' 24 8 = 0#8 := by
  refine ⟨?_, ?_, ?_, ?_⟩ <;> rw [delimWord]
  · rw [BitVec.extractLsb'_append_eq_right]
  · rw [BitVec.extractLsb'_append_eq_of_le (by decide), BitVec.extractLsb'_append_eq_right]
  · iterate 2 rw [BitVec.extractLsb'_append_eq_of_le (by decide)]
    rw [BitVec.extractLsb'_append_eq_right]
  · iterate 3 rw [BitVec.extractLsb'_append_eq_of_le (by decide)]
    exact BitVec.extractLsb'_zero

/-- ENT's fields (R104). -/
theorem entWord_fields (active : Bool) (code : Byte) :
    (entWord active code).extractLsb' 0 8 = code ∧ (entWord active code).getLsbD 8 = active ∧
      (entWord active code).extractLsb' 9 23 = 0#23 := by
  refine ⟨?_, ?_, ?_⟩ <;> rw [entWord]
  · rw [BitVec.extractLsb'_append_eq_right]
  · rw [getLsbD_append_of_le (by decide), getLsbD_append_ofBool]
  · iterate 2 rw [BitVec.extractLsb'_append_eq_of_le (by decide)]
    exact BitVec.extractLsb'_zero

/-- A byte's word (R12). -/
theorem byteWord_fields (b : Byte) :
    (byteWord b).extractLsb' 0 8 = b ∧ (byteWord b).extractLsb' 8 24 = 0#24 := by
  have hb : byteWord b = 0#24 ++ b := BitVec.setWidth_eq_append (by decide)
  rw [hb]
  exact ⟨BitVec.extractLsb'_append_eq_right, BitVec.extractLsb'_append_eq_left⟩

/-- STATUS's fields (R99). -/
theorem statusWord_fields (s : State) :
    (statusWord s).getLsbD 0 = busy s ∧ (statusWord s).getLsbD 1 = s.cfgd ∧
      (statusWord s).extractLsb' 2 2 = s.fsm.bits ∧ (statusWord s).getLsbD 4 = s.halt ∧
      (statusWord s).extractLsb' 5 2 = s.pend.bits ∧ (statusWord s).extractLsb' 7 25 = 0#25 := by
  refine ⟨?_, ?_, ?_, ?_, ?_, ?_⟩ <;> rw [statusWord]
  · rw [getLsbD_append_ofBool]
  · rw [getLsbD_append_of_le (by decide), getLsbD_append_ofBool]
  · iterate 2 rw [BitVec.extractLsb'_append_eq_of_le (by decide)]
    rw [BitVec.extractLsb'_append_eq_right]
  · iterate 3 rw [getLsbD_append_of_le (by decide)]
    rw [getLsbD_append_ofBool]
  · iterate 4 rw [BitVec.extractLsb'_append_eq_of_le (by decide)]
    rw [BitVec.extractLsb'_append_eq_right]
  · iterate 5 rw [BitVec.extractLsb'_append_eq_of_le (by decide)]
    exact BitVec.extractLsb'_zero

/-- RESULT's fields (R101). -/
theorem resultWord_fields (r : Result) :
    (resultWord r).extractLsb' 0 4 = r.code.bits ∧ (resultWord r).extractLsb' 4 4 = r.evt.bits ∧
      (resultWord r).extractLsb' 8 24 = r.val := by
  refine ⟨?_, ?_, ?_⟩ <;> rw [resultWord]
  · rw [BitVec.extractLsb'_append_eq_right]
  · rw [BitVec.extractLsb'_append_eq_of_le (by decide), BitVec.extractLsb'_append_eq_right]
  · iterate 2 rw [BitVec.extractLsb'_append_eq_of_le (by decide)]
    exact BitVec.extractLsb'_eq_self

theorem busy_eq_true_iff (s : State) : busy s = true ↔ s.pend ≠ .none := by simp [busy]

/-! ### The reads -/

/-- ENT[v] lies at 0x400 + 4 * v (R63). -/
theorem targetAt_ent (p : Params) (v : Byte) :
    targetAt p (BitVec.ofNat 18 (0x400 + 4 * v.toNat)) = some (.ent v) := by
  have ha : (BitVec.ofNat 18 (0x400 + 4 * v.toNat)).toNat = 0x400 + 4 * v.toNat := by
    rw [BitVec.toNat_ofNat]; omega
  have hv : BitVec.ofNat 8 ((0x400 + 4 * v.toNat - 0x400) / 4) = v := by simp
  simp only [targetAt, ha, hv]
  iterate 2 rw [if_neg (by omega)]
  rw [if_pos (by omega)]

/-- DMAP[v] lies at 0x800 + 4 * v (R63). -/
theorem targetAt_dmap (p : Params) (v : Byte) :
    targetAt p (BitVec.ofNat 18 (0x800 + 4 * v.toNat)) = some (.dmap v) := by
  have ha : (BitVec.ofNat 18 (0x800 + 4 * v.toNat)).toNat = 0x800 + 4 * v.toNat := by
    rw [BitVec.toNat_ofNat]; omega
  have hv : BitVec.ofNat 8 ((0x800 + 4 * v.toNat - 0x800) / 4) = v := by simp
  simp only [targetAt, ha, hv]
  iterate 3 rw [if_neg (by omega)]
  rw [if_pos (by omega)]

/-- A read of a mapped place is what that place answers (R223). -/
theorem exec_rd32_of_targetAt {a : Addr} {p : Target} {s : State} (h : targetAt s.params a = some p) :
    exec (.rd32 a) s = .next (readTarget p s) := by
  show Host.Outcome.next (readWord a s) = _
  rw [readWord, h]

/-- Settles O26: STATUS is the appended flags, BUSY among them exactly while an event is pending. -/
theorem statusReadsTheFlags : Obligations.StatusReadsTheFlags := by
  intro s
  obtain ⟨hbusy, hcfgd, hfsm, hhalt, hpend, hzero⟩ := statusWord_fields s
  refine ⟨statusWord s, rfl, by rw [hbusy, busy_eq_true_iff], hcfgd, ?_, hhalt, ?_, hzero⟩
  · rw [hfsm]; cases s.fsm <;> rfl
  · rw [hpend]; cases s.pend <;> rfl

/-- Settles O27: RESULT is the numbers of the code and the event, and the value. -/
theorem resultReadsCodeEventValue : Obligations.ResultReadsCodeEventValue := by
  intro s
  obtain ⟨hcode, hevt, hval⟩ := resultWord_fields s.result
  refine ⟨resultWord s.result, rfl, ?_, ?_, hval⟩
  · rw [hcode]; cases s.result.code <;> rfl
  · rw [hevt]; cases s.result.evt <;> rfl

/-- Settles O28: each of the five reads answers the word of its register, whatever CFGD is. -/
theorem configurationReadsItsFields : Obligations.ConfigurationReadsItsFields := fun s =>
  ⟨⟨_, rfl, ctrlWord_fields s.ctrl⟩, ⟨_, rfl, delimWord_fields s.delim⟩, rfl,
    fun v => ⟨_, exec_rd32_of_targetAt (targetAt_ent s.params v), entWord_fields _ _⟩,
    fun v => ⟨_, exec_rd32_of_targetAt (targetAt_dmap s.params v), byteWord_fields _⟩⟩

/-- Settles O29: by the invariant LENGTH and CAPACITY are at most P_RB_MAX, so their words lose no bit. -/
theorem decoderRegistersReadTheirValues : Obligations.DecoderRegistersReadTheirValues := fun s h =>
  ⟨⟨_, rfl, toNat_ofNat_of_le_rbMax (h.length_le.trans h.capacity_le)⟩,
    ⟨_, rfl, toNat_ofNat_of_le_rbMax h.capacity_le⟩, ⟨_, rfl, byteWord_fields s.rstByte⟩, rfl, rfl⟩

end Sys2Proof.Machine
end

section
/-! Construction and teardown of the context (40_config.md): INIT, the map it derives, and DEINIT. -/

namespace Sys2Proof.Machine

/-! ### INIT -/

/-- The model's check is the causes of R124. -/
theorem configError_eq_false_iff_noConfigError (s : State) : configError s = false ↔ NoConfigError s := by
  rw [configError_eq_false_iff, injectiveOnActive_iff, NoConfigError]

/-- INIT, carried by a CMD write that answers OK (R92). -/
theorem exec_init (s : State) : exec .init s = .next (respond .ok (initContext s)) := rfl

/-- With no cause of R124, INIT constructs the context around the derived map (R125). -/
theorem execInit_of_noConfigError {s : State} (hc : s.cfgd = false) (h : NoConfigError s) :
    exec .init s =
      .next { s with
        dm := deriveDm s.em, fsm := .idle, length := 0, rb := [], capacity := 0, halt := false, cfgd := true,
        result := ⟨.ok, .none, 0#24⟩, bus := .ok } := by
  have he := (configError_eq_false_iff_noConfigError s).mpr h
  obtain ⟨hc', -⟩ | ⟨-, he', -⟩ | ⟨-, -, e⟩ := initContext_cases s
  · simp [hc] at hc'
  · simp [he] at he'
  · rw [exec_init, e]; rfl

/-- On a cause of R124 INIT is ERR_CONFIG (R125). -/
theorem execInit_of_not_noConfigError {s : State} (hc : s.cfgd = false) (h : ¬ NoConfigError s) :
    exec .init s = .next { s with result := ⟨.errConfig, .none, 0#24⟩, bus := .ok } := by
  obtain ⟨hc', -⟩ | ⟨-, -, e⟩ | ⟨-, he, -⟩ := initContext_cases s
  · simp [hc] at hc'
  · rw [exec_init, e]; rfl
  · exact absurd ((configError_eq_false_iff_noConfigError s).mp he) h

/-- In a context INIT is ERR_STATE (R125, R126). -/
theorem execInit_of_cfgd {s : State} (hc : s.cfgd = true) :
    exec .init s = .next { s with result := ⟨.errState, .none, 0#24⟩, bus := .ok } := by
  obtain ⟨-, e⟩ | ⟨hc', -⟩ | ⟨hc', -⟩ := initContext_cases s
  · rw [exec_init, e]; rfl
  all_goals simp [hc] at hc'

/-- Settles O40: the map that INIT derives is pinned by `deriveDm_spec`, and a reserved bit makes INIT's word illegal. -/
theorem initConstructsTheContext : Obligations.InitConstructsTheContext := fun s =>
  ⟨fun hc h => ⟨deriveDm s.em, execInit_of_noConfigError hc h, deriveDm_spec s.em⟩,
    execInit_of_not_noConfigError, execInit_of_cfgd,
    fun d hop hres hp => illegalCommandWordChangesOnlyResult s d hp (.inr (.inr (.inl ⟨.inl hop, hres⟩)))⟩

/-! ### The derived map -/

/-- An INIT that ends in a context has derived its map (R125). -/
theorem dm_of_execInit {s t : State} (hc : s.cfgd = false) (h : exec .init s = .next t) (ht : t.cfgd = true) :
    t.dm = deriveDm s.em := by
  by_cases hok : NoConfigError s
  · rw [execInit_of_noConfigError hc hok] at h
    cases h
    rfl
  · rw [execInit_of_not_noConfigError hc hok] at h
    cases h
    simp [hc] at ht

/-- A substitute decodes to the largest byte that has it (R123(a)). -/
theorem deriveDm_tableGet (em : Table Byte) (v : Byte) :
    tableGet em (tableGet (deriveDm em) (tableGet em v)) = tableGet em v ∧
      ∀ j, tableGet em j = tableGet em v → j.toNat ≤ (tableGet (deriveDm em) (tableGet em v)).toNat :=
  (deriveDm_spec em (tableGet em v)).resolve_right fun h => h.1 v rfl

/-- The derived map inverts EM at v exactly when no larger byte has the substitute of v (R123(b)). -/
theorem deriveDm_inverts_iff (em : Table Byte) (v : Byte) :
    tableGet (deriveDm em) (tableGet em v) = v ↔
      ∀ i : Byte, v.toNat < i.toNat → tableGet em i ≠ tableGet em v := by
  obtain ⟨hcode, hmax⟩ := deriveDm_tableGet em v
  constructor
  · intro hv i hi he
    have hle := hmax i he
    rw [hv] at hle
    omega
  · intro hno
    have hge := hmax v rfl
    have hle := not_lt.mp fun hlt => hno _ hlt hcode
    exact BitVec.eq_of_toNat_eq (Nat.le_antisymm hle hge)

/-- Settles O41: INIT derives the map, and the derived map inverts EM exactly there. -/
theorem decodeMapInvertsUncollidedSubstitutes : Obligations.DecodeMapInvertsUncollidedSubstitutes := by
  intro s t v hc h ht
  rw [dm_of_execInit hc h ht]
  exact deriveDm_inverts_iff s.em v

/-! ### DEINIT -/

/-- DEINIT, carried by a CMD write that answers OK (R92). -/
theorem exec_deinit (s : State) : exec .deinit s = .next (respond .ok (deinitContext s)) := rfl

/-- Settles O42: DEINIT's two cases, CFGD = 1 and CFGD = 0, are the two clauses. -/
theorem deinitEndsTheContext : Obligations.DeinitEndsTheContext := by
  intro s
  obtain ⟨hc, e⟩ | ⟨hc, e⟩ := deinitContext_cases s
  · exact ⟨fun hc' => by simp [hc] at hc', fun _ => by rw [exec_deinit, e]; rfl⟩
  · exact ⟨fun _ => by rw [exec_deinit, e]; rfl, fun hc' => by simp [hc] at hc'⟩

end Sys2Proof.Machine
end

section
/-! The decoder, one row at a time (41_decoder.md): what DECB is in each row, what an append and a restart leave,
and the answers that end an event. -/

namespace Sys2Proof.Machine

/-! ### The answers to a pending event -/

/-- A RESP write is the answer of its low bits (R105, R225). -/
theorem exec_wr32Resp (d : Word) (s : State) : exec (.wr32Resp d) s = .next (answerPending (answerOf d) s) := rfl

theorem answerOf_ack {d : Word} (h : d.extractLsb' 0 2 = 1#2) : answerOf d = .ack := by simp [answerOf, h]

theorem answerOf_grant {d : Word} (h : d.extractLsb' 0 2 = 2#2) : answerOf d = .grant := by simp [answerOf, h]

theorem answerOf_deny {d : Word} (h : d.extractLsb' 0 2 = 3#2) : answerOf d = .deny := by simp [answerOf, h]

section
variable {s : State}

theorem answerPending_ack_packet (hp : s.pend = .pkt) : answerPending .ack s = respond .ok (ackPacket s) := by
  simp [answerPending, hp]

theorem answerPending_ack_restart {k : RestartKind} (hp : s.pend = .rst k) :
    answerPending .ack s = respond .ok (ackRestart k s) := by
  simp [answerPending, hp]

theorem answerPending_grant {x : Byte} {k : AppendKind} (hp : s.pend = .alloc x k) :
    answerPending .grant s = respond .ok (grantAlloc x k s) := by
  simp [answerPending, hp]

theorem answerPending_deny {x : Byte} {k : AppendKind} (hp : s.pend = .alloc x k) :
    answerPending .deny s = respond .ok (denyAlloc s) := by
  simp [answerPending, hp]

end

/-- Settles O36: ACK fits each of the three events, and clears it. -/
theorem ackEndsPacketAndRestart : Obligations.AckEndsPacketAndRestart := by
  intro s d hd
  rw [exec_wr32Resp, answerOf_ack hd]
  exact ⟨fun hp => congrArg Host.Outcome.next (answerPending_ack_packet hp),
    fun hp => congrArg Host.Outcome.next (answerPending_ack_restart hp),
    fun hp => congrArg Host.Outcome.next (answerPending_ack_restart hp)⟩

/-- Settles O37: GRANT fits a growth request, and stores its byte. -/
theorem grantAppendsTheByte : Obligations.GrantAppendsTheByte := by
  intro s d x k hd hp
  rw [exec_wr32Resp, answerOf_grant hd, answerPending_grant hp]
  cases k <;> rfl

/-- Settles O38: DENY fits a growth request, and only halts. -/
theorem denyHaltsWithoutConsuming : Obligations.DenyHaltsWithoutConsuming := by
  intro s d x k hd hp
  rw [exec_wr32Resp, answerOf_deny hd, answerPending_deny hp]
  rfl

/-! ### RESUME and RESTART -/

/-- RESUME, carried by a CMD write that answers OK (R92). -/
theorem exec_resume (s : State) : exec .resume s = .next (respond .ok (resumeDecoding s)) := rfl

/-- RESTART, carried by a CMD write that answers OK (R92). -/
theorem exec_restart (s : State) : exec .restart s = .next (respond .ok (restartDecoding s)) := rfl

/-- A word of RESUME's or RESTART's opcode with a reserved bit set is illegal (R93, R97). -/
theorem illegalWord_of_reserved {d : Word} (hop : d.extractLsb' 28 4 = 4#4 ∨ d.extractLsb' 28 4 = 5#4)
    (hres : d.extractLsb' 0 28 ≠ 0#28) : IllegalWord d :=
  .inr (.inr (.inl ⟨.inr (.inr hop), hres⟩))

/-- Settles O51: RESUME's two cases, CFGD = 0 and CFGD = 1, and the illegal words of its opcode. -/
theorem resumeKeepsTheFrame : Obligations.ResumeKeepsTheFrame := by
  intro s
  have illegal : ∀ d : Word, d.extractLsb' 28 4 = 4#4 → d.extractLsb' 0 28 ≠ 0#28 → s.pend = .none →
      exec (.wr32Cmd d) s = .next { s with result := ⟨.errIllegal, .none, 0#24⟩, bus := .ok } :=
    fun d hop hres hp => illegalCommandWordChangesOnlyResult s d hp (illegalWord_of_reserved (.inl hop) hres)
  obtain ⟨hc, e⟩ | ⟨hc, e⟩ := resumeDecoding_cases s
  · exact ⟨fun hc' => by simp [hc] at hc', fun _ => by rw [exec_resume, e]; rfl, illegal⟩
  · exact ⟨fun _ => by rw [exec_resume, e]; rfl, fun hc' => by simp [hc] at hc', illegal⟩

/-- Settles O52: RESTART's two cases, CFGD = 0 and CFGD = 1, and the illegal words of its opcode. -/
theorem restartDropsTheFrame : Obligations.RestartDropsTheFrame := by
  intro s
  have illegal : ∀ d : Word, d.extractLsb' 28 4 = 5#4 → d.extractLsb' 0 28 ≠ 0#28 → s.pend = .none →
      exec (.wr32Cmd d) s = .next { s with result := ⟨.errIllegal, .none, 0#24⟩, bus := .ok } :=
    fun d hop hres hp => illegalCommandWordChangesOnlyResult s d hp (illegalWord_of_reserved (.inr hop) hres)
  obtain ⟨hc, e⟩ | ⟨hc, e⟩ := restartDecoding_cases s
  · exact ⟨fun hc' => by simp [hc] at hc', fun _ => by rw [exec_restart, e]; rfl, illegal⟩
  · exact ⟨fun _ => by rw [exec_restart, e]; rfl, fun hc' => by simp [hc] at hc', illegal⟩

/-! ### The rows of DECB -/

/-- DECB, carried by a CMD write that answers OK (R92). -/
theorem exec_decb (b : Byte) (s : State) : exec (.decb b) s = .next (respond .ok (decodeByte b s)) := rfl

section
variable {s : State} {b : Byte} (hc : s.cfgd = true) (hh : s.halt = false)
include hc hh

/-- Row 1 (R153). -/
theorem decodeByte_start (hf : s.fsm = .idle) (hb : b = s.delim.startByte) :
    decodeByte b s = finish .ok .start 0#24 { s with length := 0, rb := [], fsm := .inFrame } := by
  simp [decodeByte, hc, hh, hf, decodeIdle, hb]

/-- Row 2 (R154). -/
theorem decodeByte_ignore (hf : s.fsm = .idle) (hb : b ≠ s.delim.startByte) :
    decodeByte b s = finish .ok .ignore 0#24 s := by
  simp [decodeByte, hc, hh, hf, decodeIdle, hb]

/-- Row 3 (R155). -/
theorem decodeByte_end (hf : s.fsm = .inFrame) (hb : b = s.delim.endByte) :
    decodeByte b s = record (.packet s.user s.rb) { s with fsm := .idle, pend := .pkt } := by
  simp [decodeByte, hc, hh, hf, decodeInFrame, hb]

/-- Row 4 (R158). -/
theorem decodeByte_duplicateStart (hf : s.fsm = .inFrame) (he : b ≠ s.delim.endByte) (hb : b = s.delim.startByte) :
    decodeByte b s = restartFrame b .dup s := by
  simp [decodeByte, hc, hh, hf, decodeInFrame, he, ← hb]

/-- Row 5 (R159). -/
theorem decodeByte_escape (hf : s.fsm = .inFrame) (he : b ≠ s.delim.endByte) (hs : b ≠ s.delim.startByte)
    (hb : b = s.delim.escByte) :
    decodeByte b s = finish .ok .escape 0#24 { s with fsm := .escaping } := by
  simp [decodeByte, hc, hh, hf, decodeInFrame, he, hs, ← hb]

/-- Row 6 (R162). -/
theorem decodeByte_data (hf : s.fsm = .inFrame) (he : b ≠ s.delim.endByte) (hs : b ≠ s.delim.startByte)
    (hx : b ≠ s.delim.escByte) : decodeByte b s = appendByte b .data s := by
  simp [decodeByte, hc, hh, hf, decodeInFrame, he, hs, hx]

/-- Row 7 on a byte that decodes to an active one (R160). -/
theorem decodeByte_validEscape (hf : s.fsm = .escaping) (ha : tableGet s.act (tableGet s.dm b) = true) :
    decodeByte b s = appendByte (tableGet s.dm b) .unesc s := by
  simp [decodeByte, hc, hh, hf, decodeEscaping, ha]

/-- Row 7 on a byte that decodes to an inactive one (R161). -/
theorem decodeByte_invalidEscape (hf : s.fsm = .escaping) (ha : tableGet s.act (tableGet s.dm b) = false) :
    decodeByte b s = restartFrame b .badEsc s := by
  simp [decodeByte, hc, hh, hf, decodeEscaping, ha]

end

/-- Settles O44: rows 1 and 2. -/
theorem decbInIdle : Obligations.DecbInIdle := by
  intro s b hc hh hf
  rw [exec_decb]
  exact ⟨fun hb => by rw [decodeByte_start hc hh hf hb]; rfl, fun hb => by rw [decodeByte_ignore hc hh hf hb]; rfl⟩

/-- Settles O45: row 3, tried before the row of START. -/
theorem decbEndPostsThePacket : Obligations.DecbEndPostsThePacket := by
  intro s b hc hh hf hb
  rw [exec_decb, decodeByte_end hc hh hf hb]
  rfl

/-- Settles O47: row 5. -/
theorem decbEscBeginsAnEscape : Obligations.DecbEscBeginsAnEscape := by
  intro s b hc hh hf hb he hs
  rw [exec_decb, decodeByte_escape hc hh hf he hs hb]
  rfl

/-- Settles O46: row 4 and the invalid byte of row 7 are both a restart, posted or dropped (R165). -/
theorem decbAnomalyRestarts : Obligations.DecbAnomalyRestarts := by
  intro s b k hc hh hrow
  have hd : decodeByte b s = restartFrame b k s := by
    obtain ⟨rfl, hf, hs, he⟩ | ⟨rfl, hf, ha⟩ := hrow
    · exact decodeByte_duplicateStart hc hh hf he hs
    · exact decodeByte_invalidEscape hc hh hf ha
  rw [exec_decb, hd]
  obtain ⟨hr, e⟩ | ⟨hr, e⟩ := restartFrame_cases b k s <;> rw [e]
  · exact ⟨fun _ => rfl, fun hr' => by simp [hr] at hr'⟩
  · exact ⟨fun hr' => by simp [hr] at hr', fun _ => by cases k <;> rfl⟩

/-! ### Appending -/

/-- The bytes that DECB would append (R160, R162): in InFrame none of END, START and ESC, in Escaping one that
decodes to an active byte. -/
theorem decodeByte_eq_appendByte {s : State} {b x : Byte} {k : AppendKind} (hc : s.cfgd = true) (hh : s.halt = false)
    (hrow :
      (k = .data ∧ s.fsm = .inFrame ∧ b ≠ s.delim.endByte ∧ b ≠ s.delim.startByte ∧ b ≠ s.delim.escByte ∧ x = b) ∨
        (k = .unesc ∧ s.fsm = .escaping ∧ x = tableGet s.dm b ∧ tableGet s.act x = true)) :
    decodeByte b s = appendByte x k s := by
  obtain ⟨rfl, hf, he, hs, hx, rfl⟩ | ⟨rfl, hf, rfl, ha⟩ := hrow
  · exact decodeByte_data hc hh hf he hs hx
  · exact decodeByte_validEscape hc hh hf ha

/-- With room in the buffer the byte is stored (R163). -/
theorem appendByte_of_lt {s : State} (h : s.length < s.capacity) (x : Byte) (k : AppendKind) :
    appendByte x k s = finish .ok k.evt 0#24 (storeByte x s) := if_pos h

/-- A full buffer is to grow (R164). -/
theorem appendByte_of_full {s : State} (h : s.capacity ≤ s.length) (x : Byte) (k : AppendKind) :
    appendByte x k s = growBuffer x k s := if_neg (by omega)

/-- Growth within P_RB_MAX is requested (R164). -/
theorem growBuffer_of_le {s : State} (h : nextCapacity s.capacity ≤ s.params.rbMax) (x : Byte) (k : AppendKind) :
    growBuffer x k s =
      record (.allocRequest (nextCapacity s.capacity))
        { s with allocSize := BitVec.ofNat 32 (nextCapacity s.capacity), pend := .alloc x k } := if_neg (by omega)

/-- Growth beyond P_RB_MAX fails at once (R164). -/
theorem growBuffer_of_lt {s : State} (h : s.params.rbMax < nextCapacity s.capacity) (x : Byte) (k : AppendKind) :
    growBuffer x k s = finish .errResource .none 0#24 { s with halt := true } := if_pos h

/-- Settles O48: the three outcomes of an append, by LENGTH against CAPACITY and the new size against P_RB_MAX. -/
theorem decbAppendsOrGrows : Obligations.DecbAppendsOrGrows := by
  intro s b x k hc hh hrow
  rw [exec_decb, decodeByte_eq_appendByte hc hh hrow]
  refine ⟨fun hlt => ?_, fun n hn hfull => ?_⟩
  · rw [appendByte_of_lt hlt]
    cases k <;> rfl
  · have hn : n = nextCapacity s.capacity := hn
    subst hn
    rw [appendByte_of_full hfull.ge]
    exact ⟨fun hle => by rw [growBuffer_of_le hle]; rfl, fun hlt => by rw [growBuffer_of_lt hlt]; rfl⟩

/-- Settles O50: LENGTH = P_RB_MAX leaves CAPACITY no other value (R43(a)), and its double is beyond P_RB_MAX. -/
theorem fullBufferNeverTakesAByte : Obligations.FullBufferNeverTakesAByte := by
  intro s b hinv hc hh hmax hrow
  obtain ⟨x, k, hd⟩ : ∃ x k, decodeByte b s = appendByte x k s := by
    obtain ⟨hf, he, hs, hx⟩ | ⟨hf, ha⟩ := hrow
    · exact ⟨_, _, decodeByte_data hc hh hf he hs hx⟩
    · exact ⟨_, _, decodeByte_validEscape hc hh hf ha⟩
  have hcap : s.capacity = s.params.rbMax := hinv.capacity_le.antisymm (hmax ▸ hinv.length_le)
  rw [exec_decb, hd, appendByte_of_full (hcap.trans hmax.symm).le,
    growBuffer_of_lt (hcap ▸ lt_nextCapacity s.capacity)]
  rfl

/-! ### Packets -/

/-- From `s` to `t` no packet was posted: PEND is not PKT, and the new history has no Packet entry (R184). -/
def PostsNoPacket (s t : State) : Prop :=
  t.pend ≠ .pkt ∧ ∃ new, t.history = s.history ++ new ∧ ∀ u p, HistoryEntry.packet u p ∉ new

/-- A state with the same PEND and the same history. -/
theorem postsNoPacket_of_eq {s t : State} (hp : s.pend = .none) (hpend : t.pend = s.pend)
    (hhist : t.history = s.history) : PostsNoPacket s t :=
  ⟨by simp [hpend, hp], [], by simp [hhist], by simp⟩

/-- An append posts a growth request at most (R163, R164). -/
theorem appendByte_postsNoPacket {s : State} (hp : s.pend = .none) (x : Byte) (k : AppendKind) :
    PostsNoPacket s (appendByte x k s) := by
  obtain ⟨-, e⟩ | ⟨-, e⟩ := appendByte_cases x k s <;> rw [e]
  · exact postsNoPacket_of_eq hp rfl rfl
  · obtain ⟨-, e⟩ | ⟨-, e⟩ := growBuffer_cases x k s <;> rw [e]
    · exact postsNoPacket_of_eq hp rfl rfl
    · exact ⟨by simp, [.allocRequest (nextCapacity s.capacity)], rfl, by simp⟩

/-- A restart posts a restart event at most (R165). -/
theorem restartFrame_postsNoPacket {s : State} (hp : s.pend = .none) (b : Byte) (k : RestartKind) :
    PostsNoPacket s (restartFrame b k s) := by
  obtain ⟨-, e⟩ | ⟨-, e⟩ := restartFrame_cases b k s <;> rw [e]
  · exact ⟨by simp, [.restart b], rfl, by simp⟩
  · exact postsNoPacket_of_eq hp rfl rfl

/-- A DECB that does not take row 3 posts no packet (R184). -/
theorem decodeByte_postsNoPacket {s : State} {b : Byte} (hp : s.pend = .none)
    (hrow : ¬(s.cfgd = true ∧ s.halt = false ∧ s.fsm = .inFrame ∧ b = s.delim.endByte)) :
    PostsNoPacket s (decodeByte b s) := by
  rcases decodeByte_cases b s with
    ⟨-, e⟩ | ⟨-, -, e⟩ | ⟨-, -, -, -, e⟩ | ⟨-, -, -, -, e⟩ | ⟨hc, hh, hf, hb, -⟩ | ⟨-, -, -, -, -, e⟩ |
    ⟨-, -, -, -, -, -, e⟩ | ⟨-, -, -, -, -, -, e⟩ | ⟨-, -, -, -, e⟩ | ⟨-, -, -, -, e⟩
  · rw [e]; exact postsNoPacket_of_eq hp rfl rfl
  · rw [e]; exact postsNoPacket_of_eq hp rfl rfl
  · rw [e]; exact postsNoPacket_of_eq hp rfl rfl
  · rw [e]; exact postsNoPacket_of_eq hp rfl rfl
  · exact absurd ⟨hc, hh, hf, hb⟩ hrow
  · rw [e]; exact restartFrame_postsNoPacket hp b .dup
  · rw [e]; exact postsNoPacket_of_eq hp rfl rfl
  · rw [e]; exact appendByte_postsNoPacket hp b .data
  · rw [e]; exact appendByte_postsNoPacket hp (tableGet s.dm b) .unesc
  · rw [e]; exact restartFrame_postsNoPacket hp b .badEsc

/-- Settles O24: row 3 posts RB, and every other row posts no packet. -/
theorem onePacketPerClosedFrame : Obligations.OnePacketPerClosedFrame := by
  intro s b hp
  by_cases hrow : s.cfgd = true ∧ s.halt = false ∧ s.fsm = .inFrame ∧ b = s.delim.endByte
  · obtain ⟨hc, hh, hf, hb⟩ := id hrow
    have hd := decodeByte_end hc hh hf hb
    refine ⟨_, [.packet s.user s.rb], exec_decb b s, by rw [hd]; rfl, ?_⟩
    rw [if_pos hrow, hd]
    exact ⟨rfl, rfl⟩
  · obtain ⟨hpend, new, hnew, hno⟩ := decodeByte_postsNoPacket hp hrow
    refine ⟨_, new, exec_decb b s, hnew, ?_⟩
    rw [if_neg hrow]
    exact ⟨hpend, hno⟩

/-! ### The reset configuration -/

/-- The derived map keeps to the active bytes where each of the others is no substitute and 0x00 is inactive: condition
(d) of R180. -/
theorem deriveDm_inactive {act : Table Bool} {em : Table Byte} (hzero : tableGet act 0x00#8 = false) {c : Byte}
    (hc : ∀ v, tableGet act v = true → tableGet em v ≠ c) : tableGet act (tableGet (deriveDm em) c) = false := by
  obtain ⟨hem, -⟩ | ⟨-, hdm⟩ := deriveDm_spec em c
  · exact Bool.eq_false_of_not_eq_true fun hact => hc _ hact hem
  · rw [hdm, hzero]

/-- Settles O54: the two active bytes have substitutes of their own, and 0x00 is inactive. -/
theorem resetConfigurationIsWellFormed : Obligations.ResetConfigurationIsWellFormed := by
  obtain ⟨-, hstart, hend, hesc, htables⟩ := defaultResetConfiguration
  have hact := fun v => (htables v).1
  have hem := fun v => (htables v).2
  refine ⟨⟨?_, ?_, ?_, ?_, ?_, fun v hv => ?_⟩, fun c => deriveDm_inactive (by simp [hact])⟩
  · rw [hesc, hstart]; decide
  · rw [hesc, hend]; decide
  · rw [hstart, hact]; decide
  · rw [hend, hact]; decide
  · rw [hesc, hact]; decide
  · refine (deriveDm_inverts_iff _ v).mpr fun i hi => ?_
    rw [hact, Bool.or_eq_true, beq_iff_eq, beq_iff_eq] at hv
    have hne : i ≠ v := by rintro rfl; omega
    rw [hem, hem]
    obtain rfl | rfl := hv
    · rw [if_neg hne, if_pos rfl]
      split <;> decide
    · rw [if_neg (by decide : 0xDB#8 ≠ 0xC0#8), if_pos rfl, if_neg hne]
      split <;> decide

end Sys2Proof.Machine
end

section
/-! Decode calls (30_encoding.md R109): how a call stops, and that chunking does not matter (R172). -/

namespace Sys2Proof.Machine

section
variable {grants : State → Bool}

theorem decodeCall_cons_of_next {b : Byte} {bs : List Byte} {s t : State} (h : decodeOne grants b s = .next t) :
    decodeCall grants (b :: bs) s =
      if t.result.code = .errResource then .next (0, t) else consumedBefore 1 (decodeCall grants bs t) := by
  rw [decodeCall, h]

theorem consumedBefore_zero (o : Host.Outcome (Nat × State) Fault Refusal) : consumedBefore 0 o = o := by
  cases o <;> simp [consumedBefore]

theorem consumedBefore_consumedBefore (k m : Nat) (o : Host.Outcome (Nat × State) Fault Refusal) :
    consumedBefore k (consumedBefore m o) = consumedBefore (k + m) o := by
  cases o <;> simp [consumedBefore, Nat.add_assoc]

/-- What a decode call answers: a count within its bytes, and nothing pending. Where it stops short, the call of the
consumed bytes alone ends in a state that the next byte leaves as `Exhausted` says (R164, R168). -/
theorem decodeCall_next (bs : List Byte) {s : State} (hp : s.pend = .none) :
    ∃ n t, decodeCall grants bs s = .next (n, t) ∧ n ≤ bs.length ∧ t.pend = .none ∧
      (n < bs.length → ∃ u, decodeCall grants (bs.take n) s = .next (n, u) ∧ Exhausted u t) := by
  induction bs generalizing s with
  | nil => exact ⟨0, s, rfl, Nat.le_refl 0, hp, fun h => absurd h (Nat.not_lt_zero 0)⟩
  | cons b bs ih =>
    obtain ⟨t, hone, ht, hstop⟩ := decodeOne_next grants b hp
    by_cases hr : t.result.code = .errResource
    · refine ⟨0, t, ?_, Nat.zero_le _, ht, fun _ => ⟨s, rfl, hstop hr⟩⟩
      rw [decodeCall_cons_of_next hone, if_pos hr]
    · obtain ⟨n, t', hcall, hn, ht', hshort⟩ := ih ht
      refine ⟨1 + n, t', ?_, by simp; omega, ht', fun h => ?_⟩
      · rw [decodeCall_cons_of_next hone, if_neg hr, hcall]
        rfl
      · obtain ⟨u, hu, hex⟩ := hshort (by simp at h; omega)
        refine ⟨u, ?_, hex⟩
        rw [Nat.add_comm, List.take_succ_cons, decodeCall_cons_of_next hone, if_neg hr, hu, Nat.add_comm]
        rfl

/-- A call that runs to the end of `c` goes on with `d`; one that stops short never sees `d`. -/
theorem decodeCall_append {c : List Byte} (d : List Byte) {s t : State} {n : Nat} (hp : s.pend = .none)
    (h : decodeCall grants c s = .next (n, t)) :
    decodeCall grants (c ++ d) s =
      if n < c.length then .next (n, t) else consumedBefore n (decodeCall grants d t) := by
  induction c generalizing s t n with
  | nil => cases h; exact (consumedBefore_zero _).symm
  | cons b c ih =>
    obtain ⟨u, hone, hu, -⟩ := decodeOne_next grants b hp
    rw [decodeCall_cons_of_next hone] at h
    rw [List.cons_append, decodeCall_cons_of_next hone]
    split at h
    · next hr =>
      cases h
      rw [if_pos hr, if_pos (by simp)]
    · next hr =>
      obtain ⟨m, t', hcall, -⟩ := decodeCall_next (grants := grants) c hu
      rw [hcall] at h
      cases h
      rw [if_neg hr, ih hu hcall, List.length_cons, Nat.add_comm c.length, apply_ite (consumedBefore 1),
        consumedBefore_consumedBefore]
      simp only [Nat.add_lt_add_iff_left]
      rfl

/-- The calls of the chunks are the one call of the joined bytes (R172). -/
theorem decodeCalls_eq_decodeCall_flatten (chunks : List (List Byte)) {s : State} (hp : s.pend = .none) :
    decodeCalls grants chunks s = decodeCall grants chunks.flatten s := by
  induction chunks generalizing s with
  | nil => rfl
  | cons c cs ih =>
    obtain ⟨n, t, hcall, -, ht, -⟩ := decodeCall_next (grants := grants) c hp
    rw [List.flatten_cons, decodeCall_append cs.flatten hp hcall, decodeCalls, hcall, ← ih ht]

/-- A halted decoder runs a call to its end, changing only RESULT and the response (R248). -/
theorem decodeCall_halted (bs : List Byte) {s : State} (hp : s.pend = .none) (hc : s.cfgd = true)
    (hh : s.halt = true) :
    ∃ r x, decodeCall grants bs s = .next (bs.length, { s with result := r, bus := x }) := by
  induction bs generalizing s with
  | nil => exact ⟨s.result, s.bus, rfl⟩
  | cons b bs ih =>
    obtain ⟨r, x, hcall⟩ := ih (s := { s with result := ⟨.errHalted, .none, 0#24⟩, bus := .ok }) hp hc hh
    refine ⟨r, x, ?_⟩
    rw [decodeCall_cons_of_next (decodeOne_halted grants b hp hc hh), if_neg (by simp), hcall, consumedBefore,
      Nat.add_comm]
    rfl

end

/-- Settles O55: the chunks' calls are the whole's call; where it stops short, the byte left over only halted. -/
theorem chunkingDoesNotMatter : Obligations.ChunkingDoesNotMatter := by
  intro grants chunks s hp
  obtain ⟨n, t, hcall, hn, ht, hshort⟩ := decodeCall_next (grants := grants) chunks.flatten hp
  refine ⟨n, t, hcall, (decodeCalls_eq_decodeCall_flatten chunks hp).trans hcall, hn, ht, fun hlt => ?_⟩
  obtain ⟨u, hu, hex⟩ := hshort hlt
  obtain ⟨new, hnew, hquiet⟩ := hex.history
  refine ⟨hex.halt, hex.result,
    ⟨u, new, hu, hex.fsm, hex.length, hex.capacity, hex.rb, hex.rstByte, hnew, hquiet⟩, fun bs => ?_⟩
  exact ⟨bs.length, decodeCall_halted bs ht hex.cfgd hex.halt⟩

end Sys2Proof.Machine
end

section
/-! The host that grants every request (41_decoder.md R173, R181): what one fed byte does, and what the frames of the
round trip laws lead to (R181 to R183). -/

namespace Sys2Proof.Machine

/-! ### The granting host as a function

With nothing pending no byte stops the machine, so feeding is a function on states. -/

/-- The state after the granting host's answer. -/
def hostAnswer (s : State) : State :=
  match s.pend with
  | .none => s
  | .pkt => respond .ok (ackPacket s)
  | .rst k => respond .ok (ackRestart k s)
  | .alloc x k => respond .ok (grantAlloc x k s)

/-- The state after one fed byte, where nothing was pending. -/
def fed (b : Byte) (s : State) : State := hostAnswer (respond .ok (decodeByte b s))

/-- The state after the fed bytes, where nothing was pending. -/
def fedAll (bs : List Byte) (s : State) : State := bs.foldl (fun s b => fed b s) s

@[simp] theorem fedAll_nil (s : State) : fedAll [] s = s := rfl

@[simp] theorem fedAll_cons (b : Byte) (bs : List Byte) (s : State) : fedAll (b :: bs) s = fedAll bs (fed b s) := rfl

@[simp] theorem fedAll_append (bs cs : List Byte) (s : State) : fedAll (bs ++ cs) s = fedAll cs (fedAll bs s) :=
  List.foldl_append

section
variable {s : State}

theorem hostAnswer_of_none (hp : s.pend = .none) : hostAnswer s = s := by
  simp [hostAnswer, hp]

theorem hostAnswer_of_packet (hp : s.pend = .pkt) : hostAnswer s = respond .ok (ackPacket s) := by
  simp [hostAnswer, hp]

theorem hostAnswer_of_restart {k : RestartKind} (hp : s.pend = .rst k) :
    hostAnswer s = respond .ok (ackRestart k s) := by
  simp [hostAnswer, hp]

theorem hostAnswer_of_alloc {x : Byte} {k : AppendKind} (hp : s.pend = .alloc x k) :
    hostAnswer s = respond .ok (grantAlloc x k s) := by
  simp [hostAnswer, hp]

/-- The RESP writes of the host do what `hostAnswer` says (R105, R225). -/
theorem hostAnswers_eq (s : State) : hostAnswers s = .next (hostAnswer s) := by
  unfold hostAnswers
  split
  · next hp => rw [hostAnswer_of_none hp]
  · next hp => rw [exec_wr32Resp, answerOf_ack rfl, answerPending_ack_packet hp, hostAnswer_of_packet hp]
  · next k hp => rw [exec_wr32Resp, answerOf_ack rfl, answerPending_ack_restart hp, hostAnswer_of_restart hp]
  · next x k hp => rw [exec_wr32Resp, answerOf_grant rfl, answerPending_grant hp, hostAnswer_of_alloc hp]

/-- Every event is answered. -/
theorem hostAnswer_pend (s : State) : (hostAnswer s).pend = .none := by
  unfold hostAnswer
  split
  · next hp => exact hp
  all_goals rfl

@[simp] theorem fed_pend (b : Byte) (s : State) : (fed b s).pend = .none := hostAnswer_pend _

theorem feedByte_eq (b : Byte) (hp : s.pend = .none) : feedByte b s = .next (fed b s) := by
  rw [feedByte, exec_cmd_decb b hp]
  exact hostAnswers_eq _

theorem feedBytes_eq (bs : List Byte) (hp : s.pend = .none) : feedBytes bs s = .next (fedAll bs s) := by
  induction bs generalizing s with
  | nil => rfl
  | cons b bs ih =>
    rw [feedBytes, feedByte_eq b hp]
    exact ih (fed_pend b s)

/-- The answer keeps the invariant. -/
theorem BlockInv.hostAnswer (h : BlockInv s) : BlockInv (hostAnswer s) := by
  unfold Machine.hostAnswer
  split
  · exact h
  · exact (h.clearPend.finish _ _ _).respond _
  · exact (h.clearPend.finish _ _ _).respond _
  · next x k hp => exact (h.grantAlloc hp).respond _

/-- A fed byte keeps the invariant. -/
theorem BlockInv.fed (h : BlockInv s) (hp : s.pend = .none) (b : Byte) : BlockInv (fed b s) :=
  ((h.decodeByte hp b).respond _).hostAnswer

end

/-! ### What feeding keeps -/

/-- The same context: its configuration, the map derived from it and the parameters. -/
structure SameSetup (s t : State) : Prop where
  cfgd : t.cfgd = s.cfgd
  delim : t.delim = s.delim
  ctrl : t.ctrl = s.ctrl
  user : t.user = s.user
  act : t.act = s.act
  em : t.em = s.em
  dm : t.dm = s.dm
  params : t.params = s.params

theorem SameSetup.refl (s : State) : SameSetup s s := ⟨rfl, rfl, rfl, rfl, rfl, rfl, rfl, rfl⟩

theorem SameSetup.trans {s t u : State} (h : SameSetup s t) (h' : SameSetup t u) : SameSetup s u :=
  ⟨h'.cfgd.trans h.cfgd, h'.delim.trans h.delim, h'.ctrl.trans h.ctrl, h'.user.trans h.user, h'.act.trans h.act,
    h'.em.trans h.em, h'.dm.trans h.dm, h'.params.trans h.params⟩

theorem hostAnswer_setup (s : State) : SameSetup s (hostAnswer s) := by
  unfold hostAnswer
  split <;> constructor <;> rfl

theorem fed_setup (b : Byte) (s : State) : SameSetup s (fed b s) := by
  have h := decodeByte_keeps b s
  have hd : SameSetup s (respond .ok (decodeByte b s)) :=
    ⟨h.cfgd, h.delim, h.ctrl, h.user, h.act, h.em, h.dm, h.params⟩
  exact hd.trans (hostAnswer_setup _)

/-! ### The rows of a fed byte -/

/-- The history entry of a restart, where the host has a restart sink (R165). -/
def restartReport (s : State) (b : Byte) : List HistoryEntry := if s.ctrl.rstEn then [.restart b] else []

section
variable {s : State} {b : Byte} (hp : s.pend = .none)
include hp

/-- A byte that posts nothing needs no answer. -/
theorem fed_of_finish {c : ResultCode} {e : Evt} {u : State} (h : decodeByte b s = finish c e 0#24 u)
    (hu : u.pend = s.pend) : fed b s = respond .ok (finish c e 0#24 u) := by
  rw [fed, h]
  exact hostAnswer_of_none (hu.trans hp)

/-- A fed restart, posted and acknowledged or dropped, leaves the same state but for its report (R165, R169). -/
theorem fed_of_restart {k : RestartKind} (h : decodeByte b s = restartFrame b k s) :
    fed b s =
      { s with
        rstByte := b, length := 0, rb := [], fsm := .idle, pend := .none, result := ⟨.ok, k.evt, 0#24⟩,
        history := s.history ++ restartReport s b, bus := .ok } := by
  obtain ⟨hr, e⟩ | ⟨hr, e⟩ := restartFrame_cases b k s
  · rw [fed, h, e, hostAnswer_of_restart (k := k) rfl, restartReport, if_pos hr]
    rfl
  · rw [fed_of_finish hp (h.trans e) rfl, restartReport, hr]
    simp [respond, finish, hp]

/-- A fed byte with room in the buffer (R163). -/
theorem fed_of_append_of_lt {x : Byte} {k : AppendKind} (h : decodeByte b s = appendByte x k s)
    (hlt : s.length < s.capacity) : fed b s = respond .ok (finish .ok k.evt 0#24 (storeByte x s)) :=
  fed_of_finish hp (h.trans (appendByte_of_lt hlt x k)) rfl

end

/-- A fed END: the packet is posted and acknowledged (R155, R166). -/
theorem fed_of_end {s : State} {b : Byte} (hc : s.cfgd = true) (hh : s.halt = false) (hf : s.fsm = .inFrame)
    (hb : b = s.delim.endByte) :
    fed b s =
      { s with
        fsm := .idle, pend := .none, result := ⟨.ok, .packet, 0#24⟩,
        history := s.history ++ [.packet s.user s.rb], bus := .ok } := by
  rw [fed, decodeByte_end hc hh hf hb, hostAnswer_of_packet rfl]
  rfl

/-- A fed byte that makes the buffer grow: the request is granted (R164, R167). -/
theorem fed_of_append_of_full {s : State} {b x : Byte} {k : AppendKind}
    (h : decodeByte b s = appendByte x k s) (hfull : s.capacity ≤ s.length)
    (hle : nextCapacity s.capacity ≤ s.params.rbMax) :
    fed b s =
      { s with
        capacity := nextCapacity s.capacity, allocSize := BitVec.ofNat 32 (nextCapacity s.capacity),
        rb := s.rb ++ [x], length := s.length + 1, fsm := .inFrame, pend := .none, result := ⟨.ok, k.evt, 0#24⟩,
        history := s.history ++ [.allocRequest (nextCapacity s.capacity), .allocAnswer true], bus := .ok } := by
  rw [fed, h, appendByte_of_full hfull, growBuffer_of_le hle, hostAnswer_of_alloc rfl]
  simp [grantAlloc, respond, finish, storeByte, record, -BitVec.toNat_ofNat, toNat_ofNat_of_le_rbMax hle]

end Sys2Proof.Machine
end

section
/-! The round trip laws (41_decoder.md R181 to R183): where a frame takes an idle decoder. -/

namespace Sys2Proof.Machine

/-- Feeding has led from `s` to `t`, a context that awaits the next byte in the decoder state `f`, with the bytes `p`
received and the entries `new` added to the history. -/
structure Reached (s t : State) (f : Fsm) (p : List Byte) (new : List HistoryEntry) : Prop where
  inv : BlockInv t
  setup : SameSetup s t
  cfgd : t.cfgd = true
  halt : t.halt = false
  pend : t.pend = .none
  fsm : t.fsm = f
  rb : t.rb = p
  history : t.history = s.history ++ new

/-- Entries that are no callback: growth requests and their answers (R151). -/
def Quiet (q : List HistoryEntry) : Prop := q.filter HistoryEntry.isCallback = []

theorem quiet_nil : Quiet [] := rfl

theorem Quiet.append {q r : List HistoryEntry} (hq : Quiet q) (hr : Quiet r) : Quiet (q ++ r) := by
  rw [Quiet, List.filter_append, hq, hr, List.append_nil]

/-- The capacities double (R164). -/
theorem nextCapacity_double (k : Nat) : nextCapacity (256 * 2 ^ k) = 256 * 2 ^ (k + 1) := by
  rw [nextCapacity, if_neg (by positivity), pow_succ]
  omega

/-- A full buffer below a capacity 256 * 2^n asks for no more than that (R164). -/
theorem nextCapacity_le_of_lt {c n : Nat} (hform : c = 0 ∨ ∃ k : Fin 24, c = 256 * 2 ^ k.val) (hlt : c < 256 * 2 ^ n) :
    nextCapacity c ≤ 256 * 2 ^ n := by
  obtain rfl | ⟨k, rfl⟩ := hform
  · exact Nat.le_mul_of_pos_right 256 (by positivity)
  · have hk : k.val < n := (Nat.pow_lt_pow_iff_right (by decide)).mp (Nat.lt_of_mul_lt_mul_left hlt)
    rw [nextCapacity_double]
    exact Nat.mul_le_mul_left 256 (Nat.pow_le_pow_right (by decide) hk)

namespace Reached

variable {s t : State} {f g : Fsm} {p q : List Byte} {new e : List HistoryEntry} {b : Byte}

/-- Where feeding begins. -/
theorem refl (hinv : BlockInv s) (hc : s.cfgd = true) (hf : s.fsm = .idle) (hh : s.halt = false)
    (hp : s.pend = .none) : Reached s s .idle s.rb [] :=
  ⟨hinv, .refl s, hc, hh, hp, hf, rfl, (List.append_nil _).symm⟩

theorem length (h : Reached s t f p new) : t.length = p.length := by rw [← h.inv.rb_length, h.rb]

/-- A fed byte goes on from there, to where its row says. -/
theorem feed (h : Reached s t f p new) (hh : (fed b t).halt = t.halt) (hf : (fed b t).fsm = g)
    (hr : (fed b t).rb = q) (hhist : (fed b t).history = t.history ++ e) : Reached s (fed b t) g q (new ++ e) where
  inv := h.inv.fed h.pend b
  setup := h.setup.trans (fed_setup b t)
  cfgd := (fed_setup b t).cfgd.trans h.cfgd
  halt := hh.trans h.halt
  pend := fed_pend b t
  fsm := hf
  rb := hr
  history := by rw [hhist, h.history, List.append_assoc]

/-- The same where the byte adds nothing to the history. -/
theorem feed_silent (h : Reached s t f p new) (hh : (fed b t).halt = t.halt) (hf : (fed b t).fsm = g)
    (hr : (fed b t).rb = q) (hhist : (fed b t).history = t.history) : Reached s (fed b t) g q new := by
  simpa using h.feed hh hf hr (e := []) (by rw [hhist, List.append_nil])

/-! ### The rows -/

/-- START opens a frame (R153). -/
theorem start (h : Reached s t .idle p new) : Reached s (fed s.delim.startByte t) .inFrame [] new := by
  have e := fed_of_finish h.pend (decodeByte_start h.cfgd h.halt h.fsm (by rw [h.setup.delim])) rfl
  apply h.feed_silent <;> rw [e] <;> rfl

/-- Any other byte leaves an idle decoder as it is (R154). -/
theorem ignore (h : Reached s t .idle p new) (hb : b ≠ s.delim.startByte) : Reached s (fed b t) .idle p new := by
  have e := fed_of_finish h.pend (decodeByte_ignore h.cfgd h.halt h.fsm (by rwa [h.setup.delim])) rfl
  apply h.feed_silent <;> rw [e]
  · rfl
  · exact h.fsm
  · exact h.rb
  · rfl

/-- END delivers the received bytes (R155). -/
theorem finish (h : Reached s t .inFrame p new) :
    Reached s (fed s.delim.endByte t) .idle p (new ++ [.packet s.user p]) := by
  have e := fed_of_end h.cfgd h.halt h.fsm (b := s.delim.endByte) (by rw [h.setup.delim])
  apply h.feed <;> rw [e]
  · exact h.rb
  · rw [h.setup.user, h.rb]

/-- ESC begins an escape (R159). -/
theorem escape (h : Reached s t .inFrame p new) (he : s.delim.escByte ≠ s.delim.endByte)
    (hs : s.delim.escByte ≠ s.delim.startByte) : Reached s (fed s.delim.escByte t) .escaping p new := by
  have e := fed_of_finish h.pend
    (decodeByte_escape h.cfgd h.halt h.fsm (b := s.delim.escByte) (by rwa [h.setup.delim]) (by rwa [h.setup.delim])
      (by rw [h.setup.delim])) rfl
  apply h.feed_silent <;> rw [e]
  · rfl
  · rfl
  · exact h.rb
  · rfl

/-- A restart drops the received bytes and is reported (R165). -/
theorem restart (h : Reached s t f p new) {k : RestartKind} (hd : decodeByte b t = restartFrame b k t) :
    Reached s (fed b t) .idle [] (new ++ restartReport s b) := by
  have e := fed_of_restart h.pend hd
  apply h.feed <;> rw [e]
  rw [restartReport, restartReport, h.setup.ctrl]

/-- A byte appended below P_RB_MAX is received, growth and all, with no callback (R163, R164, R167). -/
theorem append (h : Reached s t f p new) {x : Byte} {k : AppendKind} (hd : decodeByte b t = appendByte x k t)
    (hp : p.length < s.params.rbMax) : ∃ q, Quiet q ∧ Reached s (fed b t) .inFrame (p ++ [x]) (new ++ q) := by
  obtain hlt | hfull := Nat.lt_or_ge t.length t.capacity
  · have e := fed_of_append_of_lt h.pend hd hlt
    refine ⟨[], quiet_nil, ?_⟩
    apply h.feed <;> rw [e]
    · rfl
    · rfl
    · rw [← h.rb]; rfl
    · exact (List.append_nil _).symm
  · have hcap : t.capacity < t.params.rbMax := by rw [h.setup.params]; exact (hfull.trans_eq h.length).trans_lt hp
    have e := fed_of_append_of_full hd hfull (nextCapacity_le_of_lt h.inv.capacity_form hcap)
    refine ⟨[.allocRequest (nextCapacity t.capacity), .allocAnswer true], rfl, ?_⟩
    apply h.feed <;> rw [e]
    rw [← h.rb]

/-! ### A frame under WF -/

/-- What a payload byte is stuffed into is received as that byte (R181, R206). -/
theorem stuffByte (h : Reached s t .inFrame p new) (wf : WellFormedConfig s.delim s.act s.em)
    (hp : p.length < s.params.rbMax) (x : Byte) :
    ∃ q, Quiet q ∧
      Reached s (fedAll (stuffByte s.act s.em s.delim.escByte x) t) .inFrame (p ++ [x]) (new ++ q) := by
  unfold Machine.stuffByte
  cases ha : tableGet s.act x with
  | true =>
    have h' := h.escape wf.esc_ne_end wf.esc_ne_start
    obtain ⟨-, -, -, -, hdm⟩ := h'.inv.configured h'.cfgd
    have hx : tableGet (fed s.delim.escByte t).dm (tableGet s.em x) = x := by
      rw [hdm, h'.setup.em, wf.decodes x ha]
    refine h'.append ?_ hp (k := .unesc)
    rw [decodeByte_validEscape h'.cfgd h'.halt h'.fsm (by rw [hx, h'.setup.act, ha]), hx]
  | false =>
    have ne : ∀ {d}, tableGet s.act d = true → x ≠ d := by
      rintro d hd rfl
      simp [ha] at hd
    refine h.append (decodeByte_data h.cfgd h.halt h.fsm ?_ ?_ ?_) hp <;> rw [h.setup.delim]
    · exact ne wf.end_active
    · exact ne wf.start_active
    · exact ne wf.esc_active

/-- A stuffed payload that fits is received as that payload (R181, R206). -/
theorem stuffed (h : Reached s t .inFrame p new) (wf : WellFormedConfig s.delim s.act s.em) (xs : List Byte)
    (hp : p.length + xs.length ≤ s.params.rbMax) :
    ∃ q, Quiet q ∧ Reached s (fedAll (stuffed s.act s.em s.delim.escByte xs) t) .inFrame (p ++ xs) (new ++ q) := by
  induction xs generalizing t p new with
  | nil => exact ⟨[], quiet_nil, by simpa [Machine.stuffed] using h⟩
  | cons x xs ih =>
    rw [List.length_cons] at hp
    obtain ⟨q, hq, h'⟩ := h.stuffByte wf (by omega) x
    obtain ⟨r, hr, h''⟩ := ih h' (by simp; omega)
    refine ⟨q ++ r, hq.append hr, ?_⟩
    simpa [Machine.stuffed] using h''

/-- The frame of a payload that fits delivers that payload, its only callback, from any idle decoder (R181). -/
theorem frame (h : Reached s t .idle q new) (wf : WellFormedConfig s.delim s.act s.em)
    (hp : p.length ≤ s.params.rbMax) :
    ∃ r, r.filter HistoryEntry.isCallback = [.packet s.user p] ∧
      Reached s (fedAll (frameOf s p) t) .idle p (new ++ r) := by
  obtain ⟨r, hr, h'⟩ := h.start.stuffed wf p (by simpa using hp)
  refine ⟨r ++ [.packet s.user p], ?_, ?_⟩
  · rw [List.filter_append, hr]
    rfl
  · simpa [frameOf] using h'.finish

end Reached

/-! ### The laws -/

/-- Settles O56: the frame of p, from an idle decoder. -/
theorem decodingAnEncodedPayloadReturnsIt : Obligations.DecodingAnEncodedPayloadReturnsIt := by
  intro s p hinv wf hc hf hh hpend hp
  obtain ⟨new, hnew, h⟩ := (Reached.refl hinv hc hf hh hpend).frame wf hp
  exact ⟨_, new, feedBytes_eq _ hpend, by simpa using h.history, hnew, h.fsm, h.length, h.rb, h.pend, h.halt⟩

/-- Settles O57: under condition (d) the escaped byte decodes to an inactive one, so it restarts, and END comes to an
idle decoder that ignores it. -/
theorem invalidEscapeDropsTheFrame : Obligations.InvalidEscapeDropsTheFrame := by
  intro s x hinv wf hc hf hh hpend hsub hne
  have h := (Reached.refl hinv hc hf hh hpend).start.escape wf.esc_ne_end wf.esc_ne_start
  obtain ⟨-, -, -, -, hdm⟩ := h.inv.configured h.cfgd
  have hinactive : tableGet s.act (tableGet (deriveDm s.em) x) = false :=
    wf.others_inactive x fun v hv he => hsub ⟨v, hv, he⟩
  have hd := decodeByte_invalidEscape h.cfgd h.halt h.fsm (b := x)
    (by rw [hdm, h.setup.em, h.setup.act, hinactive])
  have h' := h.restart hd
  have h'' := h'.ignore (b := s.delim.endByte) hne.symm
  refine ⟨_, feedBytes_eq _ hpend, h''.fsm, h''.length, h''.rb, ?_, h''.pend, h''.history⟩
  show (fed s.delim.endByte _).rstByte = x
  rw [fed_of_finish h'.pend
    (decodeByte_ignore h'.cfgd h'.halt h'.fsm (by rw [h'.setup.delim]; exact hne.symm)) rfl, fed_of_restart h.pend hd]
  rfl

/-- A restart report is a callback (R151). -/
theorem filter_restartReport (s : State) (b : Byte) :
    (restartReport s b).filter HistoryEntry.isCallback = restartReport s b := by
  unfold restartReport
  split <;> rfl

/-- Settles O58: the second START restarts where it is not END, and any frame may follow; where it is END it closes an
empty frame. -/
theorem malformedFrameRecovers : Obligations.MalformedFrameRecovers := by
  intro s p hinv wf hc hf hh hpend hp
  have h := (Reached.refl hinv hc hf hh hpend).start
  refine ⟨fun hne => ?_, fun heq => ?_⟩
  · have h' := h.restart (decodeByte_duplicateStart h.cfgd h.halt h.fsm (b := s.delim.startByte)
      (by rwa [h.setup.delim]) (by rw [h.setup.delim]))
    obtain ⟨q, hq, h''⟩ := h'.frame wf hp
    refine ⟨⟨_, feedBytes_eq _ hpend, h'.fsm, h'.length, h'.history⟩,
      _, restartReport s s.delim.startByte ++ q, feedBytes_eq _ hpend, ?_, ?_⟩
    · simpa using h''.history
    · rw [List.filter_append, filter_restartReport, hq]
      rfl
  · have h' := h.finish
    rw [← heq] at h'
    exact ⟨_, feedBytes_eq _ hpend, h'.fsm, h'.length, h'.history⟩

end Sys2Proof.Machine
end

section
/-! The receive buffer under the host that grants every request (41_decoder.md R173): CAPACITY ends as the least of 0
and 256 * 2^k that holds the largest LENGTH. -/

namespace Sys2Proof.Machine

/-- The answer leaves CAPACITY, or grants the next capacity and stores the byte that asked for it (R164, R167). -/
theorem hostAnswer_capacity_cases {s : State} (hinv : BlockInv s) :
    (hostAnswer s).capacity = s.capacity ∨
      ((hostAnswer s).capacity = nextCapacity s.capacity ∧ (hostAnswer s).length = s.capacity + 1) := by
  unfold hostAnswer
  split
  · exact .inl rfl
  · exact .inl rfl
  · exact .inl rfl
  · next x k hp =>
    obtain ⟨hfull, hsize, -⟩ := hinv.pending_request hp
    exact .inr ⟨hsize, congrArg (· + 1) hfull⟩

/-- The same of a fed byte, since DECB itself leaves CAPACITY. -/
theorem fed_capacity_cases (b : Byte) {s : State} (hinv : BlockInv s) (hp : s.pend = .none) :
    (fed b s).capacity = s.capacity ∨
      ((fed b s).capacity = nextCapacity s.capacity ∧ (fed b s).length = s.capacity + 1) := by
  have h := hostAnswer_capacity_cases ((hinv.decodeByte hp b).respond .ok)
  rwa [respond_capacity, (decodeByte_keeps b s).capacity] at h

/-- The capacity `c` is no larger than a buffer needs that has held at most `m` bytes. -/
def Needed (m c : Nat) : Prop := (m = 0 → c = 0) ∧ ∀ k, m ≤ 256 * 2 ^ k → c ≤ 256 * 2 ^ k

theorem Needed.mono {m n c : Nat} (h : Needed m c) (hmn : m ≤ n) : Needed n c :=
  ⟨fun hn => h.1 (by omega), fun k hk => h.2 k (hmn.trans hk)⟩

/-- A byte beyond a full buffer needs the next capacity (R164). -/
theorem needed_nextCapacity {c : Nat} (hform : c = 0 ∨ ∃ k : Fin 24, c = 256 * 2 ^ k.val) :
    Needed (c + 1) (nextCapacity c) :=
  ⟨fun h => absurd h (Nat.succ_ne_zero c), fun _ hk => nextCapacity_le_of_lt hform hk⟩

theorem largestLength_cons (b : Byte) (bs : List Byte) {s : State} (hp : s.pend = .none) :
    largestLength (b :: bs) s = max s.length (largestLength bs (fed b s)) := by
  rw [largestLength, feedByte_eq b hp]

theorem length_le_largestLength (bs : List Byte) {s : State} (hp : s.pend = .none) :
    s.length ≤ largestLength bs s := by
  cases bs with
  | nil => exact Nat.le_refl _
  | cons b bs => rw [largestLength_cons b bs hp]; exact Nat.le_max_left _ _

/-- One fed byte keeps what a capacity is needed for. -/
theorem Needed.fed {s : State} {m : Nat} (h : Needed m s.capacity) (hinv : BlockInv s) (hp : s.pend = .none)
    (b : Byte) : Needed (max m (fed b s).length) (fed b s).capacity := by
  obtain hc | ⟨hc, hl⟩ := fed_capacity_cases b hinv hp <;> rw [hc]
  · exact h.mono (Nat.le_max_left _ _)
  · rw [hl]
    exact (needed_nextCapacity hinv.capacity_form).mono (Nat.le_max_right _ _)

/-- Fed bytes keep it, against the largest LENGTH that they reach. -/
theorem Needed.fedAll {s : State} {m : Nat} (h : Needed m s.capacity) (hinv : BlockInv s) (hp : s.pend = .none)
    (bs : List Byte) : Needed (max m (largestLength bs s)) (fedAll bs s).capacity := by
  induction bs generalizing s m with
  | nil => exact h.mono (Nat.le_max_left _ _)
  | cons b bs ih =>
    have hle := length_le_largestLength bs (fed_pend b s)
    rw [largestLength_cons b bs hp]
    exact (ih (h.fed hinv hp b) (hinv.fed hp b) (fed_pend b s)).mono (by omega)

theorem capacity_le_fed {s : State} (hinv : BlockInv s) (hp : s.pend = .none) (b : Byte) :
    s.capacity ≤ (fed b s).capacity := by
  obtain hc | ⟨hc, -⟩ := fed_capacity_cases b hinv hp <;> rw [hc]
  exact (lt_nextCapacity _).le

theorem BlockInv.fedAll {s : State} (hinv : BlockInv s) (hp : s.pend = .none) (bs : List Byte) :
    BlockInv (fedAll bs s) := by
  induction bs generalizing s with
  | nil => exact hinv
  | cons b bs ih => exact ih (hinv.fed hp b) (fed_pend b s)

theorem capacity_le_fedAll {s : State} (hinv : BlockInv s) (hp : s.pend = .none) (bs : List Byte) :
    s.capacity ≤ (fedAll bs s).capacity := by
  induction bs generalizing s with
  | nil => exact Nat.le_refl _
  | cons b bs ih => exact (capacity_le_fed hinv hp b).trans (ih (hinv.fed hp b) (fed_pend b s))

/-- CAPACITY holds every LENGTH on the way, since it never shrinks (R25, R43(a)). -/
theorem largestLength_le_capacity {s : State} (hinv : BlockInv s) (hp : s.pend = .none) (bs : List Byte) :
    largestLength bs s ≤ (fedAll bs s).capacity := by
  induction bs generalizing s with
  | nil => exact hinv.length_le
  | cons b bs ih =>
    rw [largestLength_cons b bs hp]
    exact max_le (hinv.length_le.trans (capacity_le_fedAll hinv hp (b :: bs))) (ih (hinv.fed hp b) (fed_pend b s))

/-- Settles O59: CAPACITY holds the largest LENGTH, and grew only where a byte needed it. -/
theorem capacityIsTheLeastThatHolds : Obligations.CapacityIsTheLeastThatHolds := by
  intro s t bs hinv _ hp hzero hfeed
  cases (feedBytes_eq bs hp).symm.trans hfeed
  have hneed : Needed 0 s.capacity := ⟨fun _ => hzero, fun _ _ => hzero ▸ Nat.zero_le _⟩
  obtain ⟨hnone, hleast⟩ := Nat.zero_max _ ▸ hneed.fedAll hinv hp bs
  refine ⟨largestLength_le_capacity hinv hp bs, ?_, hnone, hleast⟩
  exact (hinv.fedAll hp bs).capacity_form.imp_right fun ⟨k, hk⟩ => ⟨k.val, hk⟩

end Sys2Proof.Machine
end

section
/-! The encoder (42_encoder.md): the five outcomes of ENCODE, the frame it writes, and that only one of them stops the
machine. -/

namespace Sys2Proof.Machine

/-! ### The frame -/

/-- The payload's bytes are stuffed one by one (R206). -/
theorem stuffed_eq_flatMap (act : Table Bool) (em : Table Byte) (esc : Byte) (p : List Byte) :
    stuffed act em esc p = p.flatMap (stuffByte act em esc) := by
  induction p with
  | nil => rfl
  | cons b p ih => rw [stuffed, ih, List.flatMap_cons]

/-- The frame as R206 writes it out. -/
theorem frameOf_eq_flatMap (s : State) (p : List Byte) :
    frameOf s p =
      [s.delim.startByte] ++ p.flatMap (fun b => if tableGet s.act b then [s.delim.escByte, tableGet s.em b] else [b]) ++
        [s.delim.endByte] := by
  rw [frameOf, stuffed_eq_flatMap]
  rfl

/-- Under WF, a byte is stuffed into the pair of an active byte, or is a single byte that is no delimiter and no ESC,
since those are active (R180, R206). -/
theorem stuffByte_escapes {x : Delim} {act : Table Bool} {em : Table Byte} (wf : WellFormedConfig x act em) (b : Byte) :
    (∃ c, stuffByte act em x.escByte b = [c] ∧ c ≠ x.startByte ∧ c ≠ x.endByte ∧ c ≠ x.escByte) ∨
      ∃ v, tableGet act v = true ∧ stuffByte act em x.escByte b = [x.escByte, tableGet em v] := by
  unfold stuffByte
  split
  · next hb => exact .inr ⟨b, hb, rfl⟩
  · next hb =>
    have ne : ∀ {d}, tableGet act d = true → b ≠ d := by
      rintro d hd rfl
      exact hb hd
    exact .inl ⟨b, rfl, ne wf.start_active, ne wf.end_active, ne wf.esc_active⟩

/-- Settles O60: the chunks are what the payload's bytes are stuffed into. -/
theorem delimitersInAFrameAreEscaped : Obligations.DelimitersInAFrameAreEscaped := by
  intro s p wf
  refine ⟨p.map (stuffByte s.act s.em s.delim.escByte), ?_, fun c hc => ?_⟩
  · rw [frameOf, stuffed_eq_flatMap, List.flatMap_def]
  · obtain ⟨b, -, rfl⟩ := List.mem_map.mp hc
    exact stuffByte_escapes wf b

/-! ### The outcomes of ENCODE -/

/-- A payload is what a read of its cells answers (R201, R205). -/
theorem payloadAt_iff_readFrom {m : Memory} {n : Nat} {p : List Byte} :
    PayloadAt m n p ↔ m.readFrom 0 n = some p := by
  simp only [PayloadAt, Memory.readFrom_eq_some, Nat.zero_add]

/-- No payload is read exactly where one of the cells is unwritten (R205). -/
theorem readFrom_zero_eq_none {m : Memory} {n : Nat} : m.readFrom 0 n = none ↔ ∃ j < n, m.read j = none := by
  simp only [Memory.readFrom_eq_none, Nat.zero_add]

section

variable {s : State} {n c : BitVec 14} {p : List Byte}

/-- Outside a context (R201). -/
theorem execEncode_outside (hc : s.cfgd = false) :
    execEncode n c s = .next { s with result := ⟨.errState, .none, 0#24⟩, bus := .ok } := by
  show execEncode n c s = .next (failWith .errState (replyOk s))
  simp [execEncode, encodePayload, hc]

/-- With n or C beyond the memories (R201). -/
theorem execEncode_outOfRange (hc : s.cfgd = true) (hr : s.params.epSize < n.toNat ∨ s.params.eoSize < c.toNat) :
    execEncode n c s = .next { s with result := ⟨.errRange, .none, 0#24⟩, bus := .ok } := by
  show execEncode n c s = .next (failWith .errRange (replyOk s))
  simp [execEncode, encodePayload, hc, hr]

variable (hc : s.cfgd = true) (hn : n.toNat ≤ s.params.epSize) (hk : c.toNat ≤ s.params.eoSize)
include hc hn hk

/-- Over an unwritten cell (R205). -/
theorem execEncode_unwritten (hp : s.ep.readFrom 0 n.toNat = none) :
    execEncode n c s = .fault .encodeUnwrittenCell := by
  simp [execEncode, encodePayload, hc, Nat.not_lt.mpr hn, Nat.not_lt.mpr hk, hp]

/-- With a frame longer than C (R202, R204). -/
theorem execEncode_overflow (hp : s.ep.readFrom 0 n.toNat = some p) (ho : c.toNat < requiredLength s.act p) :
    execEncode n c s = .next { s with result := ⟨.errOverflow, .none, 0#24⟩, bus := .ok } := by
  show execEncode n c s = .next (failWith .errOverflow (replyOk s))
  simp [execEncode, encodePayload, hc, Nat.not_lt.mpr hn, Nat.not_lt.mpr hk, hp, ho]

/-- With a frame that fits (R201). -/
theorem execEncode_fits (hp : s.ep.readFrom 0 n.toNat = some p) (hr : requiredLength s.act p ≤ c.toNat) :
    execEncode n c s =
      .next { s with
        eo := s.eo.writeFrom 0 (frameOf s p), result := ⟨.ok, .none, BitVec.ofNat 24 (requiredLength s.act p)⟩,
        bus := .ok } := by
  show execEncode n c s =
    .next (finish .ok .none (BitVec.ofNat 24 (requiredLength s.act p))
      { replyOk s with eo := s.eo.writeFrom 0 (frameOf (replyOk s) p) })
  simp [execEncode, encodePayload, hc, Nat.not_lt.mpr hn, Nat.not_lt.mpr hk, hp, Nat.not_lt.mpr hr]

end

/-- Settles O53: the five outcomes, the last with what a read of EO then answers and an N that 24 bits hold. -/
theorem encodeStuffsThePayload : Obligations.EncodeStuffsThePayload := by
  refine fun s n c => ⟨execEncode_outside, execEncode_outOfRange, fun hc hn hk => ⟨fun hw => ?_, ?_⟩⟩
  · exact execEncode_unwritten hc hn hk (readFrom_zero_eq_none.mpr hw)
  rintro p hp N out hN rfl
  have hread : s.ep.readFrom 0 n.toNat = some p := payloadAt_iff_readFrom.mp hp
  have hreq : requiredLength s.act p = N := by rw [hN, requiredLength, hp.1]
  rw [← frameOf_eq_flatMap]
  refine ⟨fun ho => execEncode_overflow hc hn hk hread (hreq ▸ ho), fun hfit => ?_⟩
  refine ⟨_, _, execEncode_fits hc hn hk hread (hreq ▸ hfit), ?_, (length_frameOf s p).trans hreq, fun j => ?_⟩
  · rw [hreq, BitVec.toNat_ofNat]
    exact Nat.mod_eq_of_lt (by omega)
  · rw [Memory.read_writeFrom, length_frameOf, hreq]
    simp

/-! ### The encoder and the decoder -/

/-- Two states agree on what the encoder reads (R200). -/
structure SameEncoderInputs (s t : State) : Prop where
  cfgd : t.cfgd = s.cfgd
  params : t.params = s.params
  ep : t.ep = s.ep
  eo : t.eo = s.eo
  delim : t.delim = s.delim
  act : t.act = s.act
  em : t.em = s.em

namespace SameEncoderInputs

variable {s t : State}

theorem refl (s : State) : SameEncoderInputs s s := ⟨rfl, rfl, rfl, rfl, rfl, rfl, rfl⟩

theorem frameOf_eq (h : SameEncoderInputs s t) (p : List Byte) : frameOf t p = frameOf s p := by
  rw [frameOf, h.delim, h.act, h.em, frameOf]

/-- A finished ENCODE writes the same EO and RESULT on both, and nothing else (R200). -/
theorem execEncode_eq {s' : State} {n c : BitVec 14} (h : SameEncoderInputs s t) (hs : execEncode n c s = .next s') :
    execEncode n c t = .next { t with eo := s'.eo, result := s'.result, bus := .ok } := by
  have keepsEo : ∀ r : Result, ({ t with result := r, bus := .ok } : State) =
      { t with eo := s.eo, result := r, bus := .ok } := fun r => by rw [← h.eo]
  have hep : ∀ {x}, s.ep.readFrom 0 n.toNat = x → t.ep.readFrom 0 n.toNat = x := fun e => by rw [h.ep, e]
  rw [execEncode, replyOk_eq] at hs
  obtain ⟨hc, e⟩ | ⟨hc, hr, e⟩ | ⟨-, -, -, -, e⟩ | ⟨p, hc, hn, hk, hp, ho, e⟩ | ⟨p, hc, hn, hk, hp, hr, e⟩ :=
    encodePayload_cases n.toNat c.toNat (respond .ok s) <;> rw [e] at hs <;> cases hs
  · rw [execEncode_outside (h.cfgd.trans hc)]
    exact congrArg _ (keepsEo _)
  · rw [execEncode_outOfRange (h.cfgd.trans hc) (by rwa [h.params])]
    exact congrArg _ (keepsEo _)
  · rw [execEncode_overflow (h.cfgd.trans hc) (by rwa [h.params]) (by rwa [h.params]) (hep hp) (by rwa [h.act])]
    exact congrArg _ (keepsEo _)
  · rw [execEncode_fits (h.cfgd.trans hc) (by rwa [h.params]) (by rwa [h.params]) (hep hp) (by rwa [h.act]), h.eo,
      h.act, h.frameOf_eq]
    rfl

end SameEncoderInputs

/-- A finished ENCODE changes EO, RESULT and the response only (R200). -/
theorem execEncode_frame {s s' : State} {n c : BitVec 14} (h : execEncode n c s = .next s') :
    s' = { s with eo := s'.eo, result := s'.result, bus := .ok } :=
  Host.Outcome.next.inj (h.symm.trans ((SameEncoderInputs.refl s).execEncode_eq h))

/-- Settles O25: no outcome depends on more than the encoder's inputs, and none writes the decoder's registers. -/
theorem encoderIgnoresTheDecoder : Obligations.EncoderIgnoresTheDecoder := by
  intro s t s' n c hcfgd hparams hep heo hdelim hact hem h
  have inputs : SameEncoderInputs s t := ⟨hcfgd, hparams, hep, heo, hdelim, hact, hem⟩
  refine ⟨inputs.execEncode_eq h, ?_⟩
  rw [execEncode_frame h]
  exact ⟨rfl, rfl, rfl, rfl, rfl, rfl, rfl⟩

/-! ### The one fault -/

/-- ENCODE n, C in a context and in range, with a cell of EP[0:n) unwritten (R205). -/
def UnwrittenPayload (s : State) (n c : BitVec 14) : Prop :=
  s.cfgd = true ∧ n.toNat ≤ s.params.epSize ∧ c.toNat ≤ s.params.eoSize ∧ ∃ j < n.toNat, s.ep.read j = none

theorem UnwrittenPayload.execEncode_eq {s : State} {n c : BitVec 14} (h : UnwrittenPayload s n c) :
    execEncode n c s = .fault .encodeUnwrittenCell := by
  obtain ⟨hc, hn, hk, hw⟩ := h
  exact execEncode_unwritten hc hn hk (readFrom_zero_eq_none.mpr hw)

/-- ENCODE finishes, or its payload is unwritten (R201, R205). -/
theorem execEncode_next_or_unwritten (n c : BitVec 14) (s : State) :
    (∃ t, execEncode n c s = .next t) ∨ UnwrittenPayload s n c := by
  rw [execEncode, replyOk_eq]
  obtain ⟨-, e⟩ | ⟨-, -, e⟩ | ⟨hc, hn, hk, hp, -⟩ | ⟨p, -, -, -, -, -, e⟩ | ⟨p, -, -, -, -, -, e⟩ :=
    encodePayload_cases n.toNat c.toNat (respond .ok s)
  · exact .inl ⟨_, e⟩
  · exact .inl ⟨_, e⟩
  · exact .inr ⟨hc, hn, hk, readFrom_zero_eq_none.mp hp⟩
  · exact .inl ⟨_, e⟩
  · exact .inl ⟨_, e⟩

/-- A CMD write completes, or runs an ENCODE whose payload is unwritten (R224). -/
theorem writeCommand_next_or_unwritten (d : Word) (s : State) :
    (∃ t, writeCommand d s = .next t) ∨
      ∃ n c, s.pend = .none ∧ decodeCommand d = .ok (.encode n c) ∧ UnwrittenPayload s n c := by
  obtain ⟨-, e⟩ | ⟨_, -, -, e⟩ | ⟨k, hp, hd, e⟩ := writeCommand_cases d s
  · exact .inl ⟨_, e⟩
  · exact .inl ⟨_, e⟩
  cases k with
  | encode n c =>
    obtain ⟨t, ht⟩ | hw := execEncode_next_or_unwritten n c s
    · exact .inl ⟨t, e.trans ht⟩
    · exact .inr ⟨n, c, hp, hd, hw⟩
  | init | deinit | decb _ | resume | restart => exact .inl ⟨_, e⟩

/-- A write completes, unless it is a CMD write that runs such an ENCODE (R220). -/
theorem exec_decodeWrite_next_or_unwritten (a : Addr) (d : Word) (s : State) :
    (∃ t, exec (decodeWrite a d) s = .next t) ∨
      ∃ n c, a = 0x00010#18 ∧ s.pend = .none ∧ decodeCommand d = .ok (.encode n c) ∧ UnwrittenPayload s n c := by
  obtain ⟨-, e⟩ | ⟨-, e⟩ | ⟨-, e⟩ | ⟨ha, e⟩ | ⟨-, e⟩ | ⟨-, e⟩ | ⟨v, -, e⟩ | ⟨i, -, e⟩ | ⟨i, -, e⟩ | ⟨-, e⟩ :=
    decodeWrite_cases a d <;> rw [e]
  · exact .inl ⟨_, rfl⟩
  · exact .inl ⟨_, rfl⟩
  · exact .inl ⟨_, rfl⟩
  · obtain h | ⟨n, c, h⟩ := writeCommand_next_or_unwritten d s
    · exact .inl h
    · exact .inr ⟨n, c, ha, h⟩
  · exact .inl ⟨_, rfl⟩
  · exact .inl ⟨_, rfl⟩
  · exact .inl ⟨_, rfl⟩
  · rw [exec, execWr32Ep]
    split <;> exact .inl ⟨_, rfl⟩
  · rw [exec, execWr32Eo]
    split <;> exact .inl ⟨_, rfl⟩
  · exact .inl ⟨_, rfl⟩

/-- A step completes, unless the host issues such an ENCODE (R205, R240). -/
theorem step_next_or_unwritten (s : State) :
    (∃ t, step s = .next t) ∨ ∃ n c, Issues s (.encode n c) ∧ UnwrittenPayload s n c := by
  obtain ⟨-, e⟩ | ⟨x, rest, hs, e⟩ | ⟨rest, -, e⟩ := step_cases s
  · exact .inl ⟨_, e⟩
  · cases x with
    | read a => exact .inl ⟨_, e⟩
    | write a d =>
      obtain ⟨t, ht⟩ | ⟨n, c, rfl, hp, hd, hw⟩ := exec_decodeWrite_next_or_unwritten a d { s with script := rest }
      · exact .inl ⟨t, e.trans ht⟩
      · exact .inr ⟨n, c, ⟨d, rest, hs, hd, hp⟩, hw⟩
  · exact .inl ⟨_, e⟩

/-- An issued command runs (R92). -/
theorem step_of_issues {s : State} {c : Command} (h : Issues s c) :
    ∃ rest, step s = exec c.toInstr { s with script := rest } := by
  obtain ⟨d, rest, hs, hd, hp⟩ := h
  refine ⟨rest, ?_⟩
  rw [step, hs]
  exact writeCommand_eq_exec (s := { s with script := rest }) hp hd

/-- An issued ENCODE whose payload is unwritten faults (R205). -/
theorem UnwrittenPayload.step_eq {s : State} {n c : BitVec 14} (h : UnwrittenPayload s n c)
    (hi : Issues s (.encode n c)) : step s = .fault .encodeUnwrittenCell := by
  obtain ⟨rest, e⟩ := step_of_issues hi
  exact e.trans (UnwrittenPayload.execEncode_eq (s := { s with script := rest }) h)

/-- Settles O12: a step completes or is such an ENCODE, which faults. -/
theorem onlyEncodeOfUnwrittenCellStops : Obligations.OnlyEncodeOfUnwrittenCellStops := by
  intro s
  obtain ⟨t, ht⟩ | ⟨n, c, hi, hw⟩ := step_next_or_unwritten s
  · refine ⟨fun r hr => ?_, fun ⟨r, hr⟩ => ?_, fun ⟨n, c, hi, hw⟩ => ⟨_, UnwrittenPayload.step_eq hw hi⟩⟩
    · cases ht.symm.trans hr
    · cases ht.symm.trans hr
  · refine ⟨fun r hr => ?_, fun _ => ⟨n, c, hi, hw⟩, fun _ => ⟨_, hw.step_eq hi⟩⟩
    cases (hw.step_eq hi).symm.trans hr

end Sys2Proof.Machine
end

section
/-! The host's access (43_host_access.md): which addresses are mapped, what is refused, and what the writes of the
configuration, the reads of the receive buffer and the encoder windows do. -/

namespace Sys2Proof.Machine

/-! ### A refused transaction -/

/-- Settles O14: a read is a response or a free draw; every effect of a write that is not the refusal answers OK. -/
theorem busErrorChangesNothing : Obligations.BusErrorChangesNothing := by
  intro s t x h hbus
  cases x with
  | read a =>
    cases h
    obtain ⟨r, e⟩ | e := readWord_cases a s <;> rw [e] at hbus
    · obtain rfl : r = .buserr := hbus
      exact e
    · cases hbus
  | write a d =>
    cases decodeWrite_effect h with
    | refused => rfl
    | _ => cases hbus

/-! ### The address map -/

/-- The registers are the first sixteen words (R63). -/
theorem registerAt_eq_none_iff (k : Nat) : registerAt k = none ↔ 16 ≤ k := by
  obtain hk | hk := Nat.lt_or_ge k 16
  · interval_cases k <;> simp [registerAt]
  · obtain ⟨n, rfl⟩ := Nat.exists_eq_add_of_le' hk
    exact iff_of_true rfl hk

/-- The places of the address map are at the mapped addresses (R63, R222). -/
theorem targetAt_eq_none_iff {p : Params} (hp : p.wf) (a : Addr) : targetAt p a = none ↔ ¬ Mapped p a := by
  obtain ⟨-, hep, -, heo⟩ := hp
  simp only [targetAt, Mapped]
  split
  · exact iff_of_true rfl (by omega)
  split
  · rw [registerAt_eq_none_iff]
    omega
  split
  · exact iff_of_false nofun (by omega)
  split
  · exact iff_of_false nofun (by omega)
  split
  · exact iff_of_true rfl (by omega)
  split
  · split
    · exact iff_of_false nofun (by omega)
    · exact iff_of_true rfl (by omega)
  split
  · split
    · exact iff_of_false nofun (by omega)
    · exact iff_of_true rfl (by omega)
  · exact iff_of_true rfl (by omega)

theorem mapped_entAddr (p : Params) (v : Byte) : Mapped p (entAddr v) := by
  rw [Mapped, entAddr_toNat]
  omega

theorem mapped_epAddr_iff (p : Params) (i : BitVec 14) : Mapped p (epAddr i) ↔ i.toNat < p.epSize := by
  rw [Mapped, epAddr_toNat]
  omega

/-- The EP window ends below EO[0], since P_EP_SIZE is at most 16384 (R8). -/
theorem mapped_eoAddr_iff {p : Params} (hp : p.wf) (i : BitVec 14) : Mapped p (eoAddr i) ↔ i.toNat < p.eoSize := by
  obtain ⟨-, hep, -, -⟩ := hp
  rw [Mapped, eoAddr_toNat]
  omega

/-- EP[i] lies in the EP window (R63). -/
theorem targetAt_epAddr {p : Params} {i : BitVec 14} (hi : i.toNat < p.epSize) :
    targetAt p (epAddr i) = some (.ep i.toNat) := by
  have hcell : (0x10000 + 4 * i.toNat - 0x10000) / 4 = i.toNat := by omega
  simp only [targetAt, epAddr_toNat, hcell]
  iterate 5 rw [if_neg (by omega)]
  rw [if_pos (by omega), if_pos hi]

/-- EO[i] lies in the EO window (R63). -/
theorem targetAt_eoAddr {p : Params} {i : BitVec 14} (hi : i.toNat < p.eoSize) :
    targetAt p (eoAddr i) = some (.eo i.toNat) := by
  have hcell : (0x20000 + 4 * i.toNat - 0x20000) / 4 = i.toNat := by omega
  simp only [targetAt, eoAddr_toNat, hcell]
  iterate 6 rw [if_neg (by omega)]
  rw [if_pos (by omega), if_pos hi]

/-! ### What is refused at every time -/

/-- A read of an address that names no place is refused (R222). -/
theorem exec_rd32_of_not_mapped {a : Addr} {s : State} (hp : s.params.wf) (ha : ¬ Mapped s.params a) :
    exec (.rd32 a) s = .next (respond .buserr s) := by
  show Host.Outcome.next (readWord a s) = _
  rw [readWord, (targetAt_eq_none_iff hp a).mpr ha]
  rfl

/-- A write of an EP cell (R230). -/
theorem exec_wr32Ep_of_lt {i : BitVec 14} {s : State} (hi : i.toNat < s.params.epSize) (d : Word) :
    exec (.wr32Ep i d) s = .next (respond .ok { s with ep := s.ep.write i.toNat (byteOf d) }) := if_pos hi

/-- A write beyond P_EP_SIZE is refused (R222). -/
theorem exec_wr32Ep_of_le {i : BitVec 14} {s : State} (hi : s.params.epSize ≤ i.toNat) (d : Word) :
    exec (.wr32Ep i d) s = .next (respond .buserr s) := if_neg hi.not_gt

/-- A write of an EO cell (R231). -/
theorem exec_wr32Eo_of_lt {i : BitVec 14} {s : State} (hi : i.toNat < s.params.eoSize) (d : Word) :
    exec (.wr32Eo i d) s = .next (respond .ok { s with eo := s.eo.write i.toNat (byteOf d) }) := if_pos hi

/-- A write beyond P_EO_SIZE is refused (R222). -/
theorem exec_wr32Eo_of_le {i : BitVec 14} {s : State} (hi : s.params.eoSize ≤ i.toNat) (d : Word) :
    exec (.wr32Eo i d) s = .next (respond .buserr s) := if_neg hi.not_gt

/-- A write of an address that names no place is refused (R222): the rows of the registers and of ENT lie at mapped
addresses, and those of EP and EO check the size. -/
theorem exec_decodeWrite_of_not_mapped {a : Addr} {s : State} (hp : s.params.wf) (ha : ¬ Mapped s.params a)
    (d : Word) : exec (decodeWrite a d) s = .next (respond .buserr s) := by
  obtain ⟨rfl, -⟩ | ⟨rfl, -⟩ | ⟨rfl, -⟩ | ⟨rfl, -⟩ | ⟨rfl, -⟩ | ⟨rfl, -⟩ | ⟨v, rfl, -⟩ | ⟨i, rfl, e⟩ | ⟨i, rfl, e⟩ |
    ⟨-, e⟩ := decodeWrite_cases a d
  iterate 6 exact absurd ⟨by decide, .inl (by decide)⟩ ha
  · exact absurd (mapped_entAddr s.params v) ha
  · rw [mapped_epAddr_iff, Nat.not_lt] at ha
    rw [e, exec_wr32Ep_of_le ha]
  · rw [mapped_eoAddr_iff hp, Nat.not_lt] at ha
    rw [e, exec_wr32Eo_of_le ha]
  · rw [e]
    rfl

/-- Settles O31: neither a read nor a write finds a place at such an address. -/
theorem unmappedAccessIsRefused : Obligations.UnmappedAccessIsRefused :=
  fun _ _ hp ha => ⟨exec_rd32_of_not_mapped hp ha, exec_decodeWrite_of_not_mapped hp ha⟩

/-- No row but WR32_RO takes a write to a read-only place (R63, R232). -/
theorem writeRowTakes_of_readOnly {a : Addr} (h : ReadOnly a) : writeRowTakes a = false := by
  simp only [ReadOnly] at h
  simp only [writeRowTakes, Bool.or_eq_false_iff, Bool.and_eq_false_iff, beq_eq_false_iff_ne, decide_eq_false_iff_not,
    ne_eq]
  omega

/-- A write to a read-only place is refused (R232). -/
theorem exec_decodeWrite_of_readOnly {a : Addr} (h : ReadOnly a) (d : Word) (s : State) :
    exec (decodeWrite a d) s = .next (respond .buserr s) := by
  rw [decodeWrite_of_not_taken (writeRowTakes_of_readOnly h)]
  rfl

/-- Settles O35: the row WR32_RO is the refusal, and a read of CMD or RESP names a place that answers nothing else. -/
theorem readOnlyWritesAndWriteOnlyReadsAreRefused : Obligations.ReadOnlyWritesAndWriteOnlyReadsAreRefused :=
  ⟨fun _ _ _ _ => rfl, fun s _ d ha => exec_decodeWrite_of_readOnly ha d s, fun _ => ⟨rfl, rfl⟩⟩

/-! ### The configuration -/

/-- A locked register is written while CFGD = 0 (R226). -/
theorem lockedWrite_of_not_cfgd {s : State} (hc : s.cfgd = false) (write : State → State) :
    lockedWrite write s = respond .ok (write s) := by
  simp [lockedWrite, hc]

/-- A locked register is refused while CFGD = 1 (R226). -/
theorem lockedWrite_of_cfgd {s : State} (hc : s.cfgd = true) (write : State → State) :
    lockedWrite write s = respond .buserr s := by
  simp [lockedWrite, hc]

/-- Settles O32: the four rows are locked writes of their register; ENT[v] writes entry v of two tables. -/
theorem configurationWritesStoreOrAreLocked : Obligations.ConfigurationWritesStoreOrAreLocked := by
  refine fun s d v => ⟨fun hc => ?_, fun hc => ?_⟩
  · have stores (write : State → State) :
        (.next (lockedWrite write s) : Host.Outcome State Fault Refusal) = .next (respond .ok (write s)) :=
      congrArg Host.Outcome.next (lockedWrite_of_not_cfgd hc write)
    exact ⟨stores _, stores _, stores _, _, _, stores (writeEntry v d),
      fun x => ⟨tableGet_tableSet s.em v x _, tableGet_tableSet s.act v x _⟩⟩
  · have refused (write : State → State) :
        (.next (lockedWrite write s) : Host.Outcome State Fault Refusal) = .next (respond .buserr s) :=
      congrArg Host.Outcome.next (lockedWrite_of_cfgd hc write)
    exact ⟨refused _, refused _, refused _, refused _⟩

/-! ### The receive buffer -/

/-- A read of RB_DATA below LENGTH answers the byte at RB_IDX (R229). -/
theorem readRbData_of_lt {s : State} (hl : s.rb.length = s.length) (h : s.rbIdx.toNat < s.rb.length) :
    readRbData s = respond (.data (byteWord s.rb[s.rbIdx.toNat])) s := by
  rw [readRbData, if_pos (hl ▸ h), List.getElem?_eq_getElem h]
  rfl

/-- At LENGTH and above it is refused (R229). -/
theorem readRbData_of_le {s : State} (h : s.length ≤ s.rbIdx.toNat) : readRbData s = respond .buserr s :=
  if_neg h.not_gt

/-- Settles O30: RB has LENGTH bytes (R43(c)), so that below LENGTH there is one to read; RB_DATA is read-only. -/
theorem rbDataReadsTheBuffer : Obligations.RbDataReadsTheBuffer := fun s hinv =>
  ⟨fun _ => rfl,
    fun h => ⟨_, congrArg Host.Outcome.next (readRbData_of_lt hinv.rb_length h), byteWord_fields _⟩,
    fun h => congrArg Host.Outcome.next (readRbData_of_le h),
    fun d => exec_decodeWrite_of_readOnly (a := 0x0003C#18) (by simp [ReadOnly]) d s⟩

/-! ### The encoder windows -/

/-- A read of a written cell answers its byte (R230, R231). -/
theorem readCell_of_some {m : Memory} {i : Nat} {b : Byte} (h : m.read i = some b) (s : State) :
    readCell m i s = respond (.data (byteWord b)) s := by
  simp [readCell, h]

/-- A read of an unwritten cell draws a free byte (U2). -/
theorem readCell_of_none {m : Memory} {i : Nat} (h : m.read i = none) (s : State) :
    readCell m i s = respond (.data (byteWord (Config.freeByte s.draws))) { s with draws := s.draws + 1 } := by
  simp [readCell, h]

/-- Settles O33: below P_EP_SIZE the address is a cell's, beyond it no place's. -/
theorem epWindowHoldsBytes : Obligations.EpWindowHoldsBytes := by
  refine fun s i d hp => ⟨fun hi => ⟨⟨_, exec_wr32Ep_of_lt hi d, fun j => s.ep.read_write i.toNat j _⟩, ?_⟩,
    fun hi => ⟨exec_wr32Ep_of_le hi d, exec_rd32_of_not_mapped hp ?_⟩⟩
  · rw [exec_rd32_of_targetAt (targetAt_epAddr hi)]
    exact ⟨fun b hb => congrArg Host.Outcome.next (readCell_of_some hb s),
      fun hn => ⟨_, congrArg Host.Outcome.next (readCell_of_none hn s)⟩⟩
  · rwa [mapped_epAddr_iff, Nat.not_lt]

/-- Settles O34: as in the EP window, with P_EO_SIZE. -/
theorem eoWindowHoldsBytes : Obligations.EoWindowHoldsBytes := by
  refine fun s i d hp => ⟨fun hi => ⟨⟨_, exec_wr32Eo_of_lt hi d, fun j => s.eo.read_write i.toNat j _⟩, ?_⟩,
    fun hi => ⟨exec_wr32Eo_of_le hi d, exec_rd32_of_not_mapped hp ?_⟩⟩
  · rw [exec_rd32_of_targetAt (targetAt_eoAddr hi)]
    exact ⟨fun b hb => congrArg Host.Outcome.next (readCell_of_some hb s),
      fun hn => ⟨_, congrArg Host.Outcome.next (readCell_of_none hn s)⟩⟩
  · rwa [mapped_eoAddr_iff hp, Nat.not_lt]

/-! ### Answers that do nothing -/

/-- The number of an answer (R105). -/
def Answer.rsp : Answer → BitVec 2
  | .nothing => 0
  | .ack => 1
  | .grant => 2
  | .deny => 3

/-- RSP is D[1:0] (R105, R225). -/
theorem answerOf_rsp (d : Word) : (answerOf d).rsp = d.extractLsb' 0 2 := by
  unfold answerOf
  generalize d.extractLsb' 0 2 = rsp
  decide +revert

theorem answerOf_nothing {d : Word} (h : d.extractLsb' 0 2 = 0#2) : answerOf d = .nothing := by simp [answerOf, h]

/-- An answer that does not fit the pending event is refused (R225): every case with an effect fits. -/
theorem answerPending_of_not_fits {a : Answer} {s : State} (h : ¬ AnswerFits a.rsp s.pend) :
    answerPending a s = respond .buserr s := by
  obtain ⟨rfl, -⟩ | ⟨rfl, hp, -⟩ | ⟨k, rfl, hp, -⟩ | ⟨x, k, rfl, hp, -⟩ | ⟨x, k, rfl, hp, -⟩ | ⟨-, -, -, -, e⟩ :=
    answerPending_cases a s
  · cases hp : s.pend <;> simp [hp, AnswerFits, Answer.rsp] at h
  iterate 4 simp [hp, AnswerFits, Answer.rsp] at h
  exact e

/-- Settles O39: RSP 0 is no answer, and an answer that does not fit is refused. -/
theorem otherAnswersDoNothing : Obligations.OtherAnswersDoNothing := by
  intro s d
  rw [exec_wr32Resp, ← answerOf_rsp]
  refine ⟨fun h => ?_, fun h => congrArg Host.Outcome.next (answerPending_of_not_fits h)⟩
  rw [answerOf_nothing (answerOf_rsp d ▸ h)]
  rfl

end Sys2Proof.Machine
end

section
/-! What ends in an error (60_exceptions.md): the causes of BUSERR, and the commands that only report ERR_STATE or
ERR_HALTED. -/

namespace Sys2Proof.Machine

/-! ### The causes of BUSERR: reads -/

/-- The byte address of a place of the address map (R63). -/
def Target.address : Target → Nat
  | .id => 0x000
  | .ctrl => 0x004
  | .delim => 0x008
  | .user => 0x00C
  | .cmd => 0x010
  | .status => 0x014
  | .result => 0x018
  | .length => 0x01C
  | .capacity => 0x020
  | .param0 => 0x024
  | .param1 => 0x028
  | .resp => 0x02C
  | .rstByte => 0x030
  | .allocSize => 0x034
  | .rbIdx => 0x038
  | .rbData => 0x03C
  | .ent v => 0x400 + 4 * v.toNat
  | .dmap v => 0x800 + 4 * v.toNat
  | .ep i => 0x10000 + 4 * i
  | .eo i => 0x20000 + 4 * i

/-- The registers are consecutive words (R63). -/
theorem address_of_registerAt {k : Nat} {p : Target} (h : registerAt k = some p) : p.address = 4 * k := by
  unfold registerAt at h
  split at h <;> cases h <;> rfl

/-- No other address names the place (R63). -/
theorem address_of_targetAt {params : Params} {a : Addr} {p : Target} (h : targetAt params a = some p) :
    p.address = a.toNat := by
  simp only [targetAt] at h
  split at h
  · cases h
  split at h
  · rw [address_of_registerAt h]
    omega
  iterate 2
    split at h
    · cases h
      simp only [Target.address, BitVec.toNat_ofNat]
      omega
  split at h
  · cases h
  iterate 2
    split at h
    · split at h <;> cases h
      simp only [Target.address]
      omega
  · cases h

/-- Of the mapped places, a read of CMD or RESP is refused, and of RB_DATA at LENGTH or above (R223, R229, R232). -/
theorem readTarget_bus_eq_buserr_iff {s : State} (hl : s.rb.length = s.length) (p : Target) :
    (readTarget p s).bus = .buserr ↔ p = .cmd ∨ p = .resp ∨ (p = .rbData ∧ s.length ≤ s.rbIdx.toNat) := by
  cases p with
  | rbData =>
    obtain hlt | hle := Nat.lt_or_ge s.rbIdx.toNat s.length
    · simp [readTarget, readRbData_of_lt hl (hl ▸ hlt), hlt]
    · simp [readTarget, readRbData_of_le hle, hle]
  | ep i => obtain ⟨_, -, e⟩ | ⟨-, e⟩ := readCell_cases s.ep i s <;> simp [readTarget, e]
  | eo i => obtain ⟨_, -, e⟩ | ⟨-, e⟩ := readCell_cases s.eo i s <;> simp [readTarget, e]
  | _ => simp [readTarget]

/-- A read is refused exactly on the causes (a), (b), (c) and (h) of R249. -/
theorem readWord_bus_eq_buserr_iff {s : State} (hinv : BlockInv s) (a : Addr) :
    (readWord a s).bus = .buserr ↔ BusErrorCause s (.read a) := by
  have hmap := targetAt_eq_none_iff hinv.params a
  cases ht : targetAt s.params a with
  | none =>
    rw [readWord, ht]
    exact iff_of_true rfl (.inl (hmap.mp ht))
  | some p =>
    have hm : Mapped s.params a := by simpa [ht] using hmap
    have named (b : Addr) (q : Target) (hq : targetAt s.params b = some q) : p = q ↔ a = b := by
      constructor
      · rintro rfl
        exact BitVec.eq_of_toNat_eq ((address_of_targetAt ht).symm.trans (address_of_targetAt hq))
      · rintro rfl
        exact Option.some.inj (ht.symm.trans hq)
    rw [readWord, ht]
    simp only [readTarget_bus_eq_buserr_iff hinv.rb_length, BusErrorCause, hm, not_true, false_or,
      named 0x010 .cmd rfl, named 0x02C .resp rfl, named 0x03C .rbData rfl]

/-! ### The causes of BUSERR: writes -/

/-- A locked register is refused in a context, and only there (R226). -/
theorem lockedWrite_bus_eq_buserr_iff (write : State → State) (s : State) :
    (lockedWrite write s).bus = .buserr ↔ s.cfgd = true := by
  obtain ⟨hc, e⟩ | ⟨hc, e⟩ := lockedWrite_cases write s <;> simp [e, hc]

/-- A command that completes answers OK (R92, R221). -/
theorem exec_toInstr_bus {c : Command} {s t : State} (h : exec c.toInstr s = .next t) : t.bus = .ok := by
  cases c with
  | encode n k => exact congrArg State.bus (execEncode_frame h)
  | init | deinit | decb _ | resume | restart => cases h; rfl

/-- A CMD write is refused while an event is pending, and only then (R224). -/
theorem writeCommand_bus_eq_buserr_iff {d : Word} {s t : State} (h : writeCommand d s = .next t) :
    t.bus = .buserr ↔ s.pend ≠ .none := by
  obtain ⟨hp, e⟩ | ⟨_, hp, -, e⟩ | ⟨c, hp, -, e⟩ := writeCommand_cases d s
  · cases e.symm.trans h
    exact iff_of_true rfl hp
  · cases e.symm.trans h
    exact iff_of_false nofun (not_not_intro hp)
  · simp [exec_toInstr_bus (e.symm.trans h), hp]

/-- A RESP write is refused where its answer does not fit the pending event, and only there (R225). -/
theorem answerPending_bus_eq_buserr_iff (a : Answer) (s : State) :
    (answerPending a s).bus = .buserr ↔ ¬ AnswerFits a.rsp s.pend := by
  refine ⟨fun hbus => ?_, fun h => by rw [answerPending_of_not_fits h]; rfl⟩
  cases a <;> cases hp : s.pend <;> simp [answerPending, hp, AnswerFits, Answer.rsp] at hbus ⊢

/-- The row of WR32_RO is the addresses that are read-only or name no place (R222, R232). -/
theorem not_mapped_or_readOnly_of_not_taken {p : Params} (hp : p.wf) {a : Addr} (h : writeRowTakes a = false) :
    ¬ Mapped p a ∨ ReadOnly a := by
  obtain ⟨-, hep, -, heo⟩ := hp
  simp only [writeRowTakes, Bool.or_eq_false_iff, Bool.and_eq_false_iff, beq_eq_false_iff_ne, decide_eq_false_iff_not,
    ne_eq] at h
  simp only [Mapped, ReadOnly]
  omega

/-- Beyond the registers lies neither CMD nor RESP (R63). -/
theorem ne_cmd_and_ne_resp {a : Addr} (ha : 0x400 ≤ a.toNat) : a ≠ 0x00010#18 ∧ a ≠ 0x0002C#18 :=
  ⟨by rintro rfl; simp at ha, by rintro rfl; simp at ha⟩

/-- Of an ENT entry the lock is the only cause (R226). -/
theorem busErrorCause_write_entAddr_iff (s : State) (v : Byte) (d : Word) :
    BusErrorCause s (.write (entAddr v) d) ↔ s.cfgd = true := by
  have hro : ¬ ReadOnly (entAddr v) := by rw [ReadOnly, entAddr_toNat]; omega
  have hcfg : Configuration (entAddr v) := by rw [Configuration, entAddr_toNat]; omega
  obtain ⟨hcmd, hresp⟩ := ne_cmd_and_ne_resp (a := entAddr v) (by rw [entAddr_toNat]; omega)
  simp [BusErrorCause, mapped_entAddr, hro, hcfg, hcmd, hresp]

/-- In the EP and EO windows the size of the memory is the only cause (R222). -/
theorem busErrorCause_write_window_iff {a : Addr} (ha : 0x10000 ≤ a.toNat) (s : State) (d : Word) :
    BusErrorCause s (.write a d) ↔ ¬ Mapped s.params a := by
  have hro : ¬ ReadOnly a := by rw [ReadOnly]; omega
  have hcfg : ¬ Configuration a := by rw [Configuration]; omega
  obtain ⟨hcmd, hresp⟩ := ne_cmd_and_ne_resp (a := a) (by omega)
  simp [BusErrorCause, hro, hcfg, hcmd, hresp]

/-- A write is refused exactly on the causes (a), (b) and (d) to (g) of R249: each row has its own. -/
theorem write_bus_eq_buserr_iff {s t : State} (hp : s.params.wf) {a : Addr} {d : Word}
    (h : exec (decodeWrite a d) s = .next t) : t.bus = .buserr ↔ BusErrorCause s (.write a d) := by
  obtain ⟨rfl, e⟩ | ⟨rfl, e⟩ | ⟨rfl, e⟩ | ⟨rfl, e⟩ | ⟨rfl, e⟩ | ⟨rfl, e⟩ | ⟨v, rfl, e⟩ | ⟨i, rfl, e⟩ | ⟨i, rfl, e⟩ |
    ⟨hro, e⟩ := decodeWrite_cases a d <;> rw [e] at h
  iterate 3
    · cases h
      rw [lockedWrite_bus_eq_buserr_iff]
      simp [BusErrorCause, Mapped, ReadOnly, Configuration]
  · rw [writeCommand_bus_eq_buserr_iff h]
    simp [BusErrorCause, Mapped, ReadOnly, Configuration]
  · cases h
    rw [answerPending_bus_eq_buserr_iff, answerOf_rsp]
    simp [BusErrorCause, Mapped, ReadOnly, Configuration]
  · cases h
    simp [BusErrorCause, Mapped, ReadOnly, Configuration]
  · cases h
    rw [lockedWrite_bus_eq_buserr_iff, busErrorCause_write_entAddr_iff]
  · rw [busErrorCause_write_window_iff (by rw [epAddr_toNat]; omega), mapped_epAddr_iff]
    obtain hi | hi := Nat.lt_or_ge i.toNat s.params.epSize
    · cases (exec_wr32Ep_of_lt hi d).symm.trans h
      simp [hi]
    · cases (exec_wr32Ep_of_le hi d).symm.trans h
      simp [hi]
  · rw [busErrorCause_write_window_iff (by rw [eoAddr_toNat]; omega), mapped_eoAddr_iff hp]
    obtain hi | hi := Nat.lt_or_ge i.toNat s.params.eoSize
    · cases (exec_wr32Eo_of_lt hi d).symm.trans h
      simp [hi]
    · cases (exec_wr32Eo_of_le hi d).symm.trans h
      simp [hi]
  · cases h
    exact iff_of_true rfl ((not_mapped_or_readOnly_of_not_taken hp hro).imp_right .inl)

/-- Settles O13: a read is refused at its place, a write by its row. -/
theorem busErrorExactlyOnItsCauses : Obligations.BusErrorExactlyOnItsCauses := by
  intro s t x hinv h
  cases x with
  | read a =>
    cases h
    exact readWord_bus_eq_buserr_iff hinv a
  | write a d => exact write_bus_eq_buserr_iff hinv.params h

/-! ### Commands that change only RESULT -/

/-- Outside a context DECB is ERR_STATE (R152, R245). -/
theorem decodeByte_outside {s : State} (hc : s.cfgd = false) (b : Byte) :
    decodeByte b s = finish .errState .none 0#24 s := by
  simp [decodeByte, hc]

/-- After a halt DECB is ERR_HALTED (R152, R248). -/
theorem decodeByte_halted {s : State} (hc : s.cfgd = true) (hh : s.halt = true) (b : Byte) :
    decodeByte b s = finish .errHalted .none 0#24 s := by
  simp [decodeByte, hc, hh]

/-- Settles O43: each of the six commands checks CFGD first. -/
theorem wrongLifecycleStateChangesOnlyResult : Obligations.WrongLifecycleStateChangesOnlyResult := by
  rintro s i (⟨hc, rfl⟩ | ⟨hc, rfl | ⟨b, rfl⟩ | rfl | rfl | ⟨n, k, rfl⟩⟩)
  · exact execInit_of_cfgd hc
  · exact (deinitEndsTheContext s).2 hc
  · rw [exec_decb, decodeByte_outside hc]
    rfl
  · exact (resumeKeepsTheFrame s).2.1 hc
  · exact (restartDropsTheFrame s).2.1 hc
  · exact execEncode_outside hc

/-- Settles O49: the check of HALT comes before the decoder state. -/
theorem decbWhileHaltedConsumesNothing : Obligations.DecbWhileHaltedConsumesNothing := by
  intro s b hc hh
  rw [exec_decb, decodeByte_halted hc hh]
  rfl

end Sys2Proof.Machine
end

section
/-! A pending event (70_reset_and_hazards.md): CMD is refused while it waits, so only the answer and the reset reach the
decoder. -/

namespace Sys2Proof.Machine

/-- A step that writes CMD while an event is pending is refused (R224, R275). -/
theorem step_of_pending_of_writesToCmd {s : State} (hp : s.pend ≠ .none) (h : WritesTo s 0x00010#18) :
    ∃ rest, step s = .next (respond .buserr { s with script := rest }) := by
  obtain ⟨d, rest, hs⟩ := h
  refine ⟨rest, ?_⟩
  rw [step, hs]
  exact writeCommand_of_pending (s := { s with script := rest }) hp d

/-- Settles O20: a CMD write is refused, and of the other effects only the reset's and those of a RESP write change the
pending event or the decoder. -/
theorem pendingEventWaitsForItsAnswer : Obligations.PendingEventWaitsForItsAnswer := by
  intro s t hp hstep hreset hresp
  by_cases hcmd : WritesTo s 0x00010#18
  · obtain ⟨rest, e⟩ := step_of_pending_of_writesToCmd hp hcmd
    cases e.symm.trans hstep
    exact ⟨rfl, rfl, rfl, rfl, rfl, rfl, rfl, fun _ => rfl⟩
  obtain ⟨-, rfl⟩ | ⟨x, rest, hs, he⟩ := step_effect hstep
  · exact ⟨rfl, rfl, rfl, rfl, rfl, rfl, rfl, fun h => absurd h hcmd⟩
  cases he with
  | reset => exact absurd ⟨rest, hs⟩ hreset
  | rejected d | init d | deinit d | decb d | resume d | restart d | encode d => exact absurd ⟨d, rest, hs⟩ hcmd
  | noAnswer d | ackPacket d | ackRestart d | grant d | deny d => exact absurd ⟨d, rest, hs⟩ hresp
  | _ => exact ⟨rfl, rfl, rfl, rfl, rfl, rfl, rfl, fun h => absurd h hcmd⟩

end Sys2Proof.Machine
end
